-- ==== Sys2Proof/Word.lean ====
section
/-! DEFINITION. The word types of the machine (spec 00_scope.md R2, R8; 10_state.md R20): bit vectors for what the
spec treats as bits, `Fin 16` for the number of a general register. All quantities are unsigned. -/

namespace Sys2Proof

/-- A memory cell, a general register or a timer: 8 bits. -/
abbrev Byte := BitVec 8

/-- A memory address, `pc`, `I` or a return address: 12 bits, so that its arithmetic is modulo 4096 (R23, R61). -/
abbrev Addr := BitVec 12

/-- An instruction word: 16 bits (R90). -/
abbrev Word := BitVec 16

/-- A display row: 64 bits, bit 63 the leftmost column (R30, R203). -/
abbrev Row := BitVec 64

/-- The number of a general register, `0` to `15` (R21). -/
abbrev Reg := Fin 16

/-- `VF`, the general register that is also the flag (R22). -/
abbrev regF : Reg := 15

/-- `V0`, read implicitly by `JP V0, NNN` (R129). -/
abbrev reg0 : Reg := 0

end Sys2Proof
end

