-- ==== Sys2Proof/WellFormed.lean ====
section
/-! DEFINITION. When an instruction is well formed: its word is canonical (spec 30_encoding.md R101). The operand
types already bound every field, and no operand value is illegal (R102), so the one check is the ignored low nibble
of 5XYN and 9XYN. The machine runs every decoded instruction, canonical or not (R98). -/

namespace Sys2Proof

/-- Why an instruction is not well formed. -/
inductive IllFormed where
  /-- 5XYN or 9XYN with a non-zero low nibble: not canonical (R98, R101). Refusing it is safe. -/
  | lowNibbleNotZero (n : BitVec 4)
  deriving DecidableEq, Repr

/-- The check of the ignored low nibble. -/
def checkLowNibble (n : BitVec 4) : Option IllFormed :=
  if n = 0 then none else some (.lowNibbleNotZero n)

/-- The reason an instruction is not well formed, or none (R101). -/
def Instr.illFormed : Instr → Option IllFormed
  | .seReg _ _ n => checkLowNibble n
  | .sneReg _ _ n => checkLowNibble n
  | .cls | .ret | .jp _ | .call _ | .seImm _ _ | .sneImm _ _ | .ldImm _ _ | .addImm _ _ => none
  | .ldReg _ _ | .orReg _ _ | .andReg _ _ | .xorReg _ _ => none
  | .addReg _ _ | .sub _ _ | .shr _ _ | .subn _ _ | .shl _ _ => none
  | .ldI _ | .jpV0 _ | .rnd _ _ | .drw _ _ _ | .skp _ | .sknp _ => none
  | .ldVxDt _ | .ldVxK _ | .ldDtVx _ | .ldStVx _ | .addI _ | .ldF _ => none
  | .ldB _ | .ldMemVx _ | .ldVxMem _ => none

/-- The instruction's word is canonical (R101). -/
def Instr.wellFormed (i : Instr) : Bool := i.illFormed.isNone

end Sys2Proof
end

