-- ==== Sys2Proof/Decode.lean ====
section
/-! DEFINITION. The decoder (spec 30_encoding.md R90 to R102): total on every word and on any bytes, rejecting by
name; the opcode table of R96; then the encoder, the inverse, written from the same formats (R92); and the ROM image
of a program (R103, R104). -/

namespace Sys2Proof

/-! ## Fields and byte order -/

/-- Bits 15:12, the opcode family (R91). -/
def Word.family (w : Word) : BitVec 4 := w.extractLsb' 12 4

/-- Bits 11:8, the first register (R91). -/
def Word.fieldX (w : Word) : Reg := (w.extractLsb' 8 4).toFin

/-- Bits 7:4, the second register (R91). -/
def Word.fieldY (w : Word) : Reg := (w.extractLsb' 4 4).toFin

/-- Bits 3:0 (R91). -/
def Word.fieldN (w : Word) : BitVec 4 := w.extractLsb' 0 4

/-- Bits 7:0 (R91). -/
def Word.fieldNN (w : Word) : Byte := w.extractLsb' 0 8

/-- Bits 11:0 (R91). -/
def Word.fieldNNN (w : Word) : Addr := w.extractLsb' 0 12

/-- The word of two bytes in memory order: the byte at the lower address is the high byte (R63). -/
def Word.ofBytes (hi lo : Byte) : Word := hi ++ lo

/-- The byte of a word that lies at the lower address, bits 15:8 (R63). -/
def Word.highByte (w : Word) : Byte := w.extractLsb' 8 8

/-- The byte of a word that lies at the higher address, bits 7:0 (R63). -/
def Word.lowByte (w : Word) : Byte := w.extractLsb' 0 8

/-! ## Decode -/

/-- Why a word selects no instruction (R97, R99). -/
inductive NonMatch where
  /-- Family 0, neither 00E0 nor 00EE (R97). -/
  | familyZero
  /-- Family 8 with a low nibble that selects nothing (R99). -/
  | aluSelector
  /-- Family E with a low byte that selects nothing (R99). -/
  | keySelector
  /-- Family F with a low byte that selects nothing (R99). -/
  | miscSelector
  deriving DecidableEq, Repr

/-- What a word decodes to (R90: every 16-bit value decodes to something). -/
inductive Decoded where
  /-- The word selects an instruction. -/
  | instr (i : Instr)
  /-- The word is a decode non-match (R100). -/
  | nonMatch (why : NonMatch)
  deriving DecidableEq, Repr

/-- The instruction decoded, if there is one. -/
def Decoded.instr? : Decoded → Option Instr
  | .instr i => some i
  | .nonMatch _ => none

/-- Family 0: the full word selects (R97). -/
def decodeZero (w : Word) : Decoded :=
  if w = 0x00E0 then .instr .cls
  else if w = 0x00EE then .instr .ret
  else .nonMatch .familyZero

/-- Family 8: the low nibble selects (R94, R99). -/
def decodeAlu (w : Word) : Decoded :=
  if w.fieldN = 0x0 then .instr (.ldReg w.fieldX w.fieldY)
  else if w.fieldN = 0x1 then .instr (.orReg w.fieldX w.fieldY)
  else if w.fieldN = 0x2 then .instr (.andReg w.fieldX w.fieldY)
  else if w.fieldN = 0x3 then .instr (.xorReg w.fieldX w.fieldY)
  else if w.fieldN = 0x4 then .instr (.addReg w.fieldX w.fieldY)
  else if w.fieldN = 0x5 then .instr (.sub w.fieldX w.fieldY)
  else if w.fieldN = 0x6 then .instr (.shr w.fieldX w.fieldY)
  else if w.fieldN = 0x7 then .instr (.subn w.fieldX w.fieldY)
  else if w.fieldN = 0xE then .instr (.shl w.fieldX w.fieldY)
  else .nonMatch .aluSelector

/-- Family E: the low byte selects (R94, R99). -/
def decodeKey (w : Word) : Decoded :=
  if w.fieldNN = 0x9E then .instr (.skp w.fieldX)
  else if w.fieldNN = 0xA1 then .instr (.sknp w.fieldX)
  else .nonMatch .keySelector

/-- Family F: the low byte selects (R94, R99). -/
def decodeMisc (w : Word) : Decoded :=
  if w.fieldNN = 0x07 then .instr (.ldVxDt w.fieldX)
  else if w.fieldNN = 0x0A then .instr (.ldVxK w.fieldX)
  else if w.fieldNN = 0x15 then .instr (.ldDtVx w.fieldX)
  else if w.fieldNN = 0x18 then .instr (.ldStVx w.fieldX)
  else if w.fieldNN = 0x1E then .instr (.addI w.fieldX)
  else if w.fieldNN = 0x29 then .instr (.ldF w.fieldX)
  else if w.fieldNN = 0x33 then .instr (.ldB w.fieldX)
  else if w.fieldNN = 0x55 then .instr (.ldMemVx w.fieldX)
  else if w.fieldNN = 0x65 then .instr (.ldVxMem w.fieldX)
  else .nonMatch .miscSelector

/-- The decoder: dispatch on the family nibble, then the secondary selector (R94). It looks at the word alone
(R102). -/
def decode (w : Word) : Decoded :=
  match w.family with
  | 0x0#4 => decodeZero w
  | 0x1#4 => .instr (.jp w.fieldNNN)
  | 0x2#4 => .instr (.call w.fieldNNN)
  | 0x3#4 => .instr (.seImm w.fieldX w.fieldNN)
  | 0x4#4 => .instr (.sneImm w.fieldX w.fieldNN)
  | 0x5#4 => .instr (.seReg w.fieldX w.fieldY w.fieldN)
  | 0x6#4 => .instr (.ldImm w.fieldX w.fieldNN)
  | 0x7#4 => .instr (.addImm w.fieldX w.fieldNN)
  | 0x8#4 => decodeAlu w
  | 0x9#4 => .instr (.sneReg w.fieldX w.fieldY w.fieldN)
  | 0xA#4 => .instr (.ldI w.fieldNNN)
  | 0xB#4 => .instr (.jpV0 w.fieldNNN)
  | 0xC#4 => .instr (.rnd w.fieldX w.fieldNN)
  | 0xD#4 => .instr (.drw w.fieldX w.fieldY w.fieldN)
  | 0xE#4 => decodeKey w
  | _ => decodeMisc w

/-- Why bytes do not decode to an instruction. -/
inductive Reject where
  /-- Fewer than the two bytes of an instruction (R90). -/
  | truncated
  /-- The first two bytes are a decode non-match (R100). -/
  | nonMatch (why : NonMatch)
  deriving DecidableEq, Repr

/-- The instruction at the head of a run of bytes in memory order, with the bytes after it (R63, R90). -/
def decodeBytes : List Byte → Except Reject (Instr × List Byte)
  | hi :: lo :: rest =>
    match decode (Word.ofBytes hi lo) with
    | .instr i => .ok (i, rest)
    | .nonMatch why => .error (.nonMatch why)
  | [_] => .error .truncated
  | [] => .error .truncated

/-- The decoder's answer for the word `w` of `nbits` bits as the opcode table numbers them, laid out as the hardware
stores it: high byte first (R63). -/
def decodeTableWord (nbits w : Nat) : Option Instr :=
  let word := BitVec.ofNat 16 (w % 2 ^ nbits)
  match decodeBytes [Word.highByte word, Word.lowByte word] with
  | .ok (i, _) => some i
  | .error _ => none

/-! ## The opcode table of R96 -/

/-- A row of R96: a word selects it when `w AND mask = bits`. -/
structure OpRow where
  /-- The column `#`. -/
  num : Nat
  mask : Word
  bits : Word
  deriving DecidableEq, Repr

/-- The word selects the row (R96). -/
def OpRow.selects (r : OpRow) (w : Word) : Bool := w &&& r.mask = r.bits

/-- The rows of families 0 to 7. -/
def opRowsLow : List OpRow :=
  [⟨1, 0xFFFF, 0x00E0⟩, ⟨2, 0xFFFF, 0x00EE⟩, ⟨3, 0xF000, 0x1000⟩, ⟨4, 0xF000, 0x2000⟩, ⟨5, 0xF000, 0x3000⟩,
   ⟨6, 0xF000, 0x4000⟩, ⟨7, 0xF000, 0x5000⟩, ⟨8, 0xF000, 0x6000⟩, ⟨9, 0xF000, 0x7000⟩]

/-- The rows of family 8. -/
def opRowsAlu : List OpRow :=
  [⟨10, 0xF00F, 0x8000⟩, ⟨11, 0xF00F, 0x8001⟩, ⟨12, 0xF00F, 0x8002⟩, ⟨13, 0xF00F, 0x8003⟩, ⟨14, 0xF00F, 0x8004⟩,
   ⟨15, 0xF00F, 0x8005⟩, ⟨16, 0xF00F, 0x8006⟩, ⟨17, 0xF00F, 0x8007⟩, ⟨18, 0xF00F, 0x800E⟩]

/-- The rows of families 9 to F. -/
def opRowsHigh : List OpRow :=
  [⟨19, 0xF000, 0x9000⟩, ⟨20, 0xF000, 0xA000⟩, ⟨21, 0xF000, 0xB000⟩, ⟨22, 0xF000, 0xC000⟩, ⟨23, 0xF000, 0xD000⟩,
   ⟨24, 0xF0FF, 0xE09E⟩, ⟨25, 0xF0FF, 0xE0A1⟩, ⟨26, 0xF0FF, 0xF007⟩, ⟨27, 0xF0FF, 0xF00A⟩, ⟨28, 0xF0FF, 0xF015⟩,
   ⟨29, 0xF0FF, 0xF018⟩, ⟨30, 0xF0FF, 0xF01E⟩, ⟨31, 0xF0FF, 0xF029⟩, ⟨32, 0xF0FF, 0xF033⟩, ⟨33, 0xF0FF, 0xF055⟩,
   ⟨34, 0xF0FF, 0xF065⟩]

/-- The 34 rows of R96, in its order. -/
def opcodeTable : List OpRow := opRowsLow ++ opRowsAlu ++ opRowsHigh

/-! ## Encode -/

/-- Format ADDR (R92). -/
def formAddr (family : BitVec 4) (nnn : Addr) : Word := family ++ nnn

/-- Formats REG_IMM and REG_SEL (R92). -/
def formRegImm (family : BitVec 4) (x : Reg) (nn : Byte) : Word :=
  (family ++ BitVec.ofFin (w := 4) x) ++ nn

/-- Formats REG_REG and DRAW (R92). -/
def formRegReg (family : BitVec 4) (x y : Reg) (n : BitVec 4) : Word :=
  (family ++ BitVec.ofFin (w := 4) x) ++ (BitVec.ofFin (w := 4) y ++ n)

/-- The word of an instruction (R92, R96). -/
def encode : Instr → Word
  | .cls => 0x00E0
  | .ret => 0x00EE
  | .jp nnn => formAddr 0x1 nnn
  | .call nnn => formAddr 0x2 nnn
  | .seImm x nn => formRegImm 0x3 x nn
  | .sneImm x nn => formRegImm 0x4 x nn
  | .seReg x y n => formRegReg 0x5 x y n
  | .ldImm x nn => formRegImm 0x6 x nn
  | .addImm x nn => formRegImm 0x7 x nn
  | .ldReg x y => formRegReg 0x8 x y 0x0
  | .orReg x y => formRegReg 0x8 x y 0x1
  | .andReg x y => formRegReg 0x8 x y 0x2
  | .xorReg x y => formRegReg 0x8 x y 0x3
  | .addReg x y => formRegReg 0x8 x y 0x4
  | .sub x y => formRegReg 0x8 x y 0x5
  | .shr x y => formRegReg 0x8 x y 0x6
  | .subn x y => formRegReg 0x8 x y 0x7
  | .shl x y => formRegReg 0x8 x y 0xE
  | .sneReg x y n => formRegReg 0x9 x y n
  | .ldI nnn => formAddr 0xA nnn
  | .jpV0 nnn => formAddr 0xB nnn
  | .rnd x nn => formRegImm 0xC x nn
  | .drw x y n => formRegReg 0xD x y n
  | .skp x => formRegImm 0xE x 0x9E
  | .sknp x => formRegImm 0xE x 0xA1
  | .ldVxDt x => formRegImm 0xF x 0x07
  | .ldVxK x => formRegImm 0xF x 0x0A
  | .ldDtVx x => formRegImm 0xF x 0x15
  | .ldStVx x => formRegImm 0xF x 0x18
  | .addI x => formRegImm 0xF x 0x1E
  | .ldF x => formRegImm 0xF x 0x29
  | .ldB x => formRegImm 0xF x 0x33
  | .ldMemVx x => formRegImm 0xF x 0x55
  | .ldVxMem x => formRegImm 0xF x 0x65

/-- The two bytes of an instruction, in memory order (R63). -/
def encodeBytes (i : Instr) : List Byte := [Word.highByte (encode i), Word.lowByte (encode i)]

/-! ## Program checks and ROM images -/

/-- Why a program check refuses a word (R101, R297). -/
inductive WordIssue where
  /-- The word selects no instruction (R100). -/
  | nonMatch (why : NonMatch)
  /-- The word is matched and not canonical (R101). -/
  | notCanonical (why : IllFormed)
  deriving DecidableEq, Repr

/-- The check of a word a portable program should pass: it is canonical (R101). It refuses by name; the machine
itself runs every word (R100). -/
def checkWord (w : Word) : Except WordIssue Instr :=
  match decode w with
  | .nonMatch why => .error (.nonMatch why)
  | .instr i =>
    match i.illFormed with
    | some why => .error (.notCanonical why)
    | none => .ok i

/-- An item of a program: an instruction, or the literal bytes of the pseudo-instruction `DB` (R104). -/
inductive Item where
  | code (i : Instr)
  | db (bytes : List Byte)
  deriving DecidableEq, Repr

/-- The bytes an item emits at the current address (R63, R104). -/
def Item.bytes : Item → List Byte
  | .code i => encodeBytes i
  | .db bs => bs

/-- The ROM image of a program: no header, no metadata, no alignment padding (R63, R104). -/
def romImage (items : List Item) : List Byte := items.flatMap Item.bytes

end Sys2Proof
end

