-- ==== Sys2Proof/Config.lean ====
section
/-! DEFINITION. The parameters of the implementation (spec 00_scope.md R6, R7). R6's are constants of the model. Of
R7's open ones, `FONT`, `keys_in`, `rom` and the schedule are arguments of the host operations of
Machine/External.lean; the random byte of a step the host supplies none for is the free value below. -/

namespace Sys2Proof.Config

/-- MEM_SIZE (R6). -/
abbrev memSize : Nat := 4096

/-- LOAD_BASE (R6, R284): where a ROM image goes. -/
abbrev loadBase : Addr := 0x200

/-- ROM_MAX (R6, R284): the longest image a load accepts, `4096 - 0x200` bytes. -/
abbrev romMax : Nat := 3584

/-- PC_RESET (R6, R280): the reset vector. -/
abbrev pcReset : Addr := 0x200

/-- INSTR_BYTES (R6, R90): every instruction is two bytes. -/
abbrev instrBytes : Addr := 2

/-- FONT_BASE (R6, R282). -/
abbrev fontBase : Addr := 0x000

/-- The length of the parameter FONT in bytes: 16 glyphs of GLYPH_HEIGHT rows (R6, R7, R282). -/
abbrev fontSize : Nat := 80

/-- GLYPH_HEIGHT (R6, R182). -/
abbrev glyphHeight : Nat := 5

/-- EXEC_RATE (R7, R299): the driver's reference cadence of steps, per second. No rule of the model uses it. -/
abbrev execRate : Nat := 500

/-- TICK_RATE (R7, R299): the driver's reference cadence of ticks, per second. No rule of the model uses it. -/
abbrev tickRate : Nat := 60

/-- The random byte of the n-th draw for which the host supplied none: a free value, under no law (R7, R164; D10).
It has no body, so nothing can be proved of its values. DESIGN CHOICE, safe: log entry 2. -/
opaque freeRnd : Nat → Byte

end Sys2Proof.Config
end

