-- ==== Sys2Proof/Machine/State.lean ====
section
/-! DEFINITION. The state of the machine (spec 10_state.md R20), the reasons a step can stop, and the state right
after reset (70_reset_and_hazards.md R280). -/

namespace Sys2Proof.Machine

/-- The values of the `fault` register (R34, R241). -/
inductive FaultCode where
  | none
  | stackOverflow
  | stackUnderflow
  deriving DecidableEq, Repr

/-- The number `fault_out` shows (R41, R241). -/
def FaultCode.code : FaultCode → BitVec 2
  | .none => 0
  | .stackOverflow => 1
  | .stackUnderflow => 2

/-- Memory, as a list of address and byte in one canonical form (Machine/Ops.lean, `Memory.wf`): addresses strictly
rising, and no entry equal to what an unlisted address reads as. -/
abbrev Memory := List Host.Cell

/-- The complete architectural state (R20), and two fields of the model's own that stand for the `rnd` input (R7, R37;
log entry 2). -/
structure State where
  /-- `mem`: 4096 bytes (R35, R60). -/
  mem : Memory
  /-- `V[0]` to `V[15]` (R21). -/
  v : Vector Byte 16
  /-- `I`, the index register (R25). -/
  i : Addr
  /-- `pc`: the address of the next instruction (R23). -/
  pc : Addr
  /-- `stack[0]` to `stack[15]`: the return addresses (R26). -/
  stack : Vector Addr 16
  /-- `sp`: the number of return addresses held (R27). -/
  sp : BitVec 4
  /-- `DT`, the delay timer (R28). -/
  dt : Byte
  /-- `ST`, the sound timer (R29). -/
  st : Byte
  /-- `disp[0]` to `disp[31]`: the display rows (R30). -/
  disp : Vector Row 32
  /-- `changed`: a redraw is needed (R31). -/
  changed : Bool
  /-- `keys_cur`: bit `k` says key `k` is pressed in this frame (R32). -/
  keysCur : BitVec 16
  /-- `keys_prev`: the previous frame's keys (R33). -/
  keysPrev : BitVec 16
  /-- `fault`: the stack fault met, if any (R34). -/
  fault : FaultCode
  /-- The model's own: the byte on the `rnd` input, if the host supplies one (R41; log entry 2). -/
  rnd : Option Byte
  /-- The model's own: how many random bytes RND has drawn (log entry 2). -/
  draws : Nat
  deriving DecidableEq, Repr

/-- Why the machine would stop without a next state. There is no such reason: the step is total (R120), no access and
no word faults (R61, R100, R261), and the two stack faults are effects on the `fault` register, hence next states
(R245 to R247). So no constructor is raised by anyone, which is safe: no behaviour is cut off (log entry 4). -/
inductive Fault where
  deriving DecidableEq, Repr

/-- Why an instruction has no meaning in the model. -/
inductive Refusal where
  /-- Raised by an arm of `exec` whose instruction has no meaning yet. Safe: the model says nothing of it. No arm
  raises it. -/
  | notModelled (mnemonic : String)
  deriving DecidableEq, Repr

/-- The machine right after reset (R280): memory lists nothing, so it reads as the reset contents
(`initialByte` of Machine/Ops.lean); everything else is zero but `pc`. `rnd` and `draws` are the model's own (DESIGN
CHOICE, log entry 2); the font the unlisted memory shows is R283's (PRESUMED, log entry 1), and `resetWith` of
Machine/External.lean takes any. -/
def State.reset : State where
  mem := []
  v := Vector.replicate 16 0
  i := 0
  pc := Config.pcReset
  stack := Vector.replicate 16 0
  sp := 0
  dt := 0
  st := 0
  disp := Vector.replicate 32 0
  changed := false
  keysCur := 0
  keysPrev := 0
  fault := .none
  rnd := none
  draws := 0

end Sys2Proof.Machine
end

