-- ==== Sys2Proof/Machine/Ops.lean ====
section
/-! DEFINITION. The named operations every meaning is written over: memory (spec 20_memory.md), registers, stack,
display, the random input, the fetch, and raising a fault (60_exceptions.md R247). -/

namespace Sys2Proof.Machine

/-! ## Memory -/

/-- The glyphs of digits 0 to 7 in the table of R283. PRESUMED (general knowledge), log entry 1. -/
def fontLow : List Byte :=
  [0xF0, 0x90, 0x90, 0x90, 0xF0] ++ [0x20, 0x60, 0x20, 0x20, 0x70] ++
  [0xF0, 0x10, 0xF0, 0x80, 0xF0] ++ [0xF0, 0x10, 0xF0, 0x10, 0xF0] ++
  [0x90, 0x90, 0xF0, 0x10, 0x10] ++ [0xF0, 0x80, 0xF0, 0x10, 0xF0] ++
  [0xF0, 0x80, 0xF0, 0x90, 0xF0] ++ [0xF0, 0x10, 0x20, 0x40, 0x40]

/-- The glyphs of digits 8 to F in the table of R283. PRESUMED (general knowledge), log entry 1. -/
def fontHigh : List Byte :=
  [0xF0, 0x90, 0xF0, 0x90, 0xF0] ++ [0xF0, 0x90, 0xF0, 0x10, 0xF0] ++
  [0xF0, 0x90, 0xF0, 0x90, 0x90] ++ [0xE0, 0x90, 0xE0, 0x90, 0xE0] ++
  [0xF0, 0x80, 0x80, 0x80, 0xF0] ++ [0xE0, 0x90, 0x90, 0x90, 0xE0] ++
  [0xF0, 0x80, 0xF0, 0x80, 0xF0] ++ [0xF0, 0x80, 0xF0, 0x80, 0x80]

/-- The default value R283 offers for the parameter FONT. -/
def defaultFont : List Byte := fontLow ++ fontHigh

/-- What an unlisted address reads as: the reset contents, FONT at 0x000 to 0x04F and zero elsewhere (R35, R280). -/
def initialByte (a : Nat) : Byte :=
  if a < Config.fontSize then defaultFont.getD a 0 else 0

/-- The canonical form from address `lo` on: addresses strictly rising and below 4096, no entry equal to what an
unlisted address reads as. -/
def Memory.wfFrom (lo : Nat) : Memory → Bool
  | [] => true
  | (a, b) :: rest =>
    decide (lo ≤ a) && decide (a < Config.memSize) && decide (b ≠ initialByte a) && Memory.wfFrom (a + 1) rest

/-- The canonical form of memory. Every memory operation keeps it (Laws/Memory.lean). -/
def Memory.wf (m : Memory) : Bool := Memory.wfFrom 0 m

/-- The byte at an address (R9 MemRead, R60). -/
def Memory.read : Memory → Nat → Byte
  | [], a => initialByte a
  | (b, w) :: rest, a => if a = b then w else Memory.read rest a

/-- Put an entry before the rest of memory, or leave it out where it says what an unlisted address says. -/
def Memory.entry (a : Nat) (w : Byte) (rest : Memory) : Memory :=
  if w = initialByte a then rest else (a, w) :: rest

/-- Write a byte (R9 MemWrite), keeping the canonical form. -/
def Memory.write : Memory → Nat → Byte → Memory
  | [], a, w => Memory.entry a w []
  | (b, u) :: rest, a, w =>
    if a < b then Memory.entry a w ((b, u) :: rest)
    else if a = b then Memory.entry a w rest
    else (b, u) :: Memory.write rest a w

/-- Write bytes at ascending addresses, each reduced modulo 4096 on its own (R61, R66). -/
def Memory.writeBytes (m : Memory) (a : Addr) : List Byte → Memory
  | [] => m
  | b :: bs => Memory.writeBytes (Memory.write m a.toNat b) (a + 1) bs

/-- `n` bytes at ascending addresses, each reduced modulo 4096 on its own (R61, R66). -/
def Memory.readBytes (m : Memory) (a : Addr) : Nat → List Byte
  | 0 => []
  | n + 1 => Memory.read m a.toNat :: Memory.readBytes m (a + 1) n

/-- The byte at an address (R61: the address is 12 bits, so it is never out of range). -/
def State.byteAt (s : State) (a : Addr) : Byte := Memory.read s.mem a.toNat

/-- `n` bytes at ascending addresses (R66). -/
def State.bytesAt (s : State) (a : Addr) (n : Nat) : List Byte := Memory.readBytes s.mem a n

/-- Store bytes at ascending addresses (R66). -/
def State.storeBytes (s : State) (a : Addr) (bs : List Byte) : State :=
  { s with mem := Memory.writeBytes s.mem a bs }

/-! ## Registers -/

/-- Read a general register (R21). No register is hardwired. -/
def State.reg (s : State) (x : Reg) : Byte := s.v[x]

/-- Write a general register (R21). -/
def State.setReg (s : State) (x : Reg) (b : Byte) : State := { s with v := s.v.set x b }

/-- Write `I` (R25). -/
def State.setI (s : State) (a : Addr) : State := { s with i := a }

/-- Control transfer (R9). -/
def State.setPc (s : State) (a : Addr) : State := { s with pc := a }

/-- Write `DT` (R28). -/
def State.setDt (s : State) (b : Byte) : State := { s with dt := b }

/-- Write `ST` (R29). -/
def State.setSt (s : State) (b : Byte) : State := { s with st := b }

/-! ## Fetch -/

/-- The word at `pc`: two byte reads, big-endian, each address reduced modulo 4096 (R63, R120). -/
def State.fetchWord (s : State) : Word := Word.ofBytes (s.byteAt s.pc) (s.byteAt (s.pc + 1))

/-- `pc` advances by 2 at the fetch, before the execution (R120). -/
def State.advance (s : State) : State := s.setPc (s.pc + Config.instrBytes)

/-- The taken skip: `pc` advances by 2 more, whatever the skipped bytes are (R130). -/
def State.skipIf (s : State) (taken : Bool) : State :=
  if taken then s.setPc (s.pc + Config.instrBytes) else s

/-- Back to the executing instruction's own address: `pc - 2` (R10, R222). -/
def State.rewind (s : State) : State := s.setPc (s.pc - Config.instrBytes)

/-! ## Raising a fault -/

/-- Raise a fault (R9, R247): precise, the step has no effect but `fault`. `pc` returns to the faulting instruction's
address (R120); there is no vector, no handler, no saved register and no mode to change. There is no return from it
(R248): reset alone clears `fault`. -/
def State.raise (s : State) (f : FaultCode) : State := { s.rewind with fault := f }

/-! ## Stack -/

/-- Push a return address: advance `sp`, then write the slot (R122). -/
def State.push (s : State) (a : Addr) : State :=
  { s with sp := s.sp + 1, stack := s.stack.set (s.sp + 1).toNat a }

/-- The newest return address, `stack[sp]` (R27, R123). -/
def State.top (s : State) : Addr := s.stack[s.sp.toNat]

/-- Pop: read the slot, then decrement `sp`; the slot keeps its value (R123). -/
def State.pop (s : State) : State := { s with pc := s.top, sp := s.sp - 1 }

/-! ## Display -/

/-- Clear every row and mark the display changed (R200). -/
def State.clearDisplay (s : State) : State :=
  { s with disp := Vector.replicate 32 0, changed := true }

/-- Where a sprite byte falls in a row: pixel `j` at column `(x0 + j) mod 64` (R201, R203). -/
def rowMask (b : Byte) (x0 : BitVec 6) : Row := (b.setWidth 64 <<< 56).rotateRight x0.toNat

/-- Draw sprite rows downward from row `y`, which wraps modulo 32: the rows after, and whether a sprite 1 met a lit
pixel (R201). -/
def drawRows (x0 : BitVec 6) (y : BitVec 5) (disp : Vector Row 32) (hit : Bool) : List Byte → Vector Row 32 × Bool
  | [] => (disp, hit)
  | b :: bs =>
    drawRows x0 (y + 1) (disp.set y.toNat (disp[y.toNat] ^^^ rowMask b x0))
      (hit || decide (disp[y.toNat] &&& rowMask b x0 ≠ 0)) bs

/-- Put new rows on the display and mark it changed (R201). -/
def State.setDisplay (s : State) (disp : Vector Row 32) : State := { s with disp := disp, changed := true }

/-! ## Keys and the random input -/

/-- Key `k` is pressed in this frame (R221). -/
def State.keyDown (s : State) (k : Reg) : Bool := s.keysCur.getLsbD k.val

/-- Key `k` went from released to pressed between the last two key updates (R222). -/
def State.keyEdge (s : State) (k : Reg) : Bool := s.keysCur.getLsbD k.val && !s.keysPrev.getLsbD k.val

/-- The lowest-numbered rising key edge, if there is one (R222). -/
def State.lowestEdge (s : State) : Option Reg :=
  [0, 1, 2, 3, 4, 5, 6, 7, 8, 9, 10, 11, 12, 13, 14, 15].find? s.keyEdge

/-- The random byte of this step: the one supplied, or else a free value (R164; log entry 2). -/
def State.rndByte (s : State) : Byte := s.rnd.getD (Config.freeRnd s.draws)

/-- The byte is drawn: the next draw is another (R164). -/
def State.drawn (s : State) : State := { s with rnd := none, draws := s.draws + 1 }

end Sys2Proof.Machine
end

