-- ==== Sys2Proof/Machine/Flags.lean ====
section
/-! DEFINITION. The flag computations (spec 10_state.md R22; 41_alu.md R156 to R162). The machine's one flag is VF,
and what is written to it is 0 or 1. -/

namespace Sys2Proof.Machine

/-- The byte a flag writes to VF: 0x01 or 0x00 (R22). -/
def flagByte (f : Bool) : Byte := if f then 1 else 0

/-- ADD: the sum of the two bytes exceeds 255 (R157). -/
def carryOut (a b : Byte) : Bool := decide (a.toNat + b.toNat > 255)

/-- SUB and SUBN: `a - b` borrows nothing (R158, R160). -/
def noBorrow (a b : Byte) : Bool := decide (a.toNat ≥ b.toNat)

/-- SHR: the bit shifted out (R159). -/
def lowBit (a : Byte) : Bool := a.getLsbD 0

/-- SHL: the bit shifted out (R161). -/
def highBit (a : Byte) : Bool := a.getLsbD 7

/-- The order of the five flag-writing instructions: the flag first, the destination last, so that the result wins
when the destination is VF (R156, R162). -/
def State.setFlagThenReg (s : State) (x : Reg) (f : Bool) (r : Byte) : State :=
  (s.setReg regF (flagByte f)).setReg x r

end Sys2Proof.Machine
end

