-- ==== Sys2Proof/Machine/Alu.lean ====
section
/-! DEFINITION. Register loads, arithmetic, logic, shifts and random (spec 41_alu.md R150 to R165). Both operands are
read before any write (R156). -/

namespace Sys2Proof.Machine

/-- LD Vx, NN (R150). -/
def execLdImm (x : Reg) (nn : Byte) (s : State) : Host.Outcome State Fault Refusal := .next (s.setReg x nn)

/-- ADD Vx, NN (R151): modulo 256, no flag. -/
def execAddImm (x : Reg) (nn : Byte) (s : State) : Host.Outcome State Fault Refusal := .next (s.setReg x (s.reg x + nn))

/-- LD Vx, Vy (R152). -/
def execLdReg (x y : Reg) (s : State) : Host.Outcome State Fault Refusal := .next (s.setReg x (s.reg y))

/-- OR Vx, Vy (R153): no flag (R163). -/
def execOrReg (x y : Reg) (s : State) : Host.Outcome State Fault Refusal := .next (s.setReg x (s.reg x ||| s.reg y))

/-- AND Vx, Vy (R154): no flag (R163). -/
def execAndReg (x y : Reg) (s : State) : Host.Outcome State Fault Refusal := .next (s.setReg x (s.reg x &&& s.reg y))

/-- XOR Vx, Vy (R155): no flag (R163). -/
def execXorReg (x y : Reg) (s : State) : Host.Outcome State Fault Refusal := .next (s.setReg x (s.reg x ^^^ s.reg y))

/-- ADD Vx, Vy (R157): VF is the carry. -/
def execAddReg (x y : Reg) (s : State) : Host.Outcome State Fault Refusal :=
  .next (s.setFlagThenReg x (carryOut (s.reg x) (s.reg y)) (s.reg x + s.reg y))

/-- SUB Vx, Vy (R158): VF is the absence of a borrow. -/
def execSub (x y : Reg) (s : State) : Host.Outcome State Fault Refusal :=
  .next (s.setFlagThenReg x (noBorrow (s.reg x) (s.reg y)) (s.reg x - s.reg y))

/-- SHR Vx (R159): logical, by one; `Y` is ignored. -/
def execShr (x _y : Reg) (s : State) : Host.Outcome State Fault Refusal :=
  .next (s.setFlagThenReg x (lowBit (s.reg x)) (s.reg x >>> 1))

/-- SUBN Vx, Vy (R160): `V[Y] - V[X]`, VF is the absence of a borrow. -/
def execSubn (x y : Reg) (s : State) : Host.Outcome State Fault Refusal :=
  .next (s.setFlagThenReg x (noBorrow (s.reg y) (s.reg x)) (s.reg y - s.reg x))

/-- SHL Vx (R161): by one, modulo 256; `Y` is ignored. -/
def execShl (x _y : Reg) (s : State) : Host.Outcome State Fault Refusal :=
  .next (s.setFlagThenReg x (highBit (s.reg x)) (s.reg x <<< 1))

/-- RND Vx, NN (R164): the random byte of this step AND the mask. -/
def execRnd (x : Reg) (nn : Byte) (s : State) : Host.Outcome State Fault Refusal :=
  .next (s.drawn.setReg x (s.rndByte &&& nn))

end Sys2Proof.Machine
end

