-- ==== Sys2Proof/Machine/Operands.lean ====
section
/-! DEFINITION. The operand forms: register indirect addressing through `I`, and the values that instructions form
from a register (spec 42_index_memory.md R182 to R184; 43_display.md R201; 44_keys_timers.md R221). -/

namespace Sys2Proof.Machine

/-- The address of element `k`: `(I + k) mod 4096` (R184). -/
def State.ea (s : State) (k : Nat) : Addr := s.i + BitVec.ofNat 12 k

/-- A register's value as an address, zero-extended (R129, R181). -/
def State.regAddr (s : State) (x : Reg) : Addr := (s.reg x).setWidth 12

/-- The low four bits of a register as a number: a key (R221) or a digit (R182). -/
def State.lowNibble (s : State) (x : Reg) : Reg := ((s.reg x).setWidth 4).toFin

/-- The address of a digit's glyph: digit × 5 (R182). -/
def glyphAddr (digit : Reg) : Addr := BitVec.ofNat 12 (digit.val * Config.glyphHeight)

/-- The three decimal digits of a byte, hundreds first, one byte each (R183). -/
def bcdDigits (b : Byte) : List Byte :=
  [BitVec.ofNat 8 (b.toNat / 100), BitVec.ofNat 8 (b.toNat / 10 % 10), BitVec.ofNat 8 (b.toNat % 10)]

/-- `V[0]` to `V[X]`, in ascending order (R185). -/
def State.regsUpTo (s : State) (x : Reg) : List Byte := s.v.toList.take (x.val + 1)

/-- Write bytes to registers in ascending order, from register `k` on (R186). -/
def loadFrom (v : Vector Byte 16) (k : Nat) : List Byte → Vector Byte 16
  | [] => v
  | b :: bs => loadFrom (v.setIfInBounds k b) (k + 1) bs

/-- Load `V[0]` to `V[X]` from `I` on (R186). -/
def State.loadRegs (s : State) (x : Reg) : State :=
  { s with v := loadFrom s.v 0 (s.bytesAt s.i (x.val + 1)) }

/-- The sprite's left column, `V[X] mod 64` (R201). -/
def State.column (s : State) (x : Reg) : BitVec 6 := (s.reg x).setWidth 6

/-- The sprite's top row, `V[Y] mod 32` (R201). -/
def State.line (s : State) (y : Reg) : BitVec 5 := (s.reg y).setWidth 5

end Sys2Proof.Machine
end

