-- ==== Sys2Proof/Machine/Display.lean ====
section
/-! DEFINITION. The display instructions and the collision detector (spec 43_display.md R200 to R203). -/

namespace Sys2Proof.Machine

/-- CLS (R200). -/
def execCls (s : State) : Host.Outcome State Fault Refusal := .next s.clearDisplay

/-- DRW Vx, Vy, N (R201): the coordinates and the sprite are read before VF is written; VF is the collision flag;
`changed` is set whatever was drawn. -/
def execDrw (x y : Reg) (n : BitVec 4) (s : State) : Host.Outcome State Fault Refusal :=
  let drawn := drawRows (s.column x) (s.line y) s.disp false (s.bytesAt s.i n.toNat)
  .next ((s.setDisplay drawn.1).setReg regF (flagByte drawn.2))

end Sys2Proof.Machine
end

