-- ==== Sys2Proof/Machine/Flow.lean ====
section
/-! DEFINITION. Control transfer (spec 40_flow.md R121 to R131) and the decode non-match (30_encoding.md R100). In
every meaning `s.pc` is the already advanced value (00_scope.md R10). -/

namespace Sys2Proof.Machine

/-- JP NNN (R121). -/
def execJp (nnn : Addr) (s : State) : Host.Outcome State Fault Refusal := .next (s.setPc nnn)

/-- CALL NNN (R122): the fault check precedes every write (R244, R245). -/
def execCall (nnn : Addr) (s : State) : Host.Outcome State Fault Refusal :=
  if s.sp = 15 then .next (s.raise .stackOverflow) else .next ((s.push s.pc).setPc nnn)

/-- RET (R123): the fault check precedes every write (R244, R246). -/
def execRet (s : State) : Host.Outcome State Fault Refusal :=
  if s.sp = 0 then .next (s.raise .stackUnderflow) else .next s.pop

/-- JP V0, NNN (R129): the sum wraps modulo 4096. -/
def execJpV0 (nnn : Addr) (s : State) : Host.Outcome State Fault Refusal := .next (s.setPc (nnn + s.regAddr reg0))

/-- SE Vx, NN (R124). -/
def execSeImm (x : Reg) (nn : Byte) (s : State) : Host.Outcome State Fault Refusal :=
  .next (s.skipIf (s.reg x == nn))

/-- SNE Vx, NN (R125). -/
def execSneImm (x : Reg) (nn : Byte) (s : State) : Host.Outcome State Fault Refusal :=
  .next (s.skipIf (s.reg x != nn))

/-- SE Vx, Vy (R126); the low nibble is ignored (R98). -/
def execSeReg (x y : Reg) (_n : BitVec 4) (s : State) : Host.Outcome State Fault Refusal :=
  .next (s.skipIf (s.reg x == s.reg y))

/-- SNE Vx, Vy (R127); the low nibble is ignored (R98). -/
def execSneReg (x y : Reg) (_n : BitVec 4) (s : State) : Host.Outcome State Fault Refusal :=
  .next (s.skipIf (s.reg x != s.reg y))

/-- A decode non-match: a no-operation, nothing but the fetch's advance of `pc` (R100). -/
def execNonMatch (s : State) : Host.Outcome State Fault Refusal := .next s

end Sys2Proof.Machine
end

