-- ==== Sys2Proof/Machine/IndexMemory.lean ====
section
/-! DEFINITION. The index register and the memory transfers (spec 42_index_memory.md R180 to R186). No memory
instruction changes `I` (R184). -/

namespace Sys2Proof.Machine

/-- LD I, NNN (R180). -/
def execLdI (nnn : Addr) (s : State) : Host.Outcome State Fault Refusal := .next (s.setI nnn)

/-- ADD I, Vx (R181): modulo 4096, no flag. -/
def execAddI (x : Reg) (s : State) : Host.Outcome State Fault Refusal := .next (s.setI (s.i + s.regAddr x))

/-- LD F, Vx (R182). -/
def execLdF (x : Reg) (s : State) : Host.Outcome State Fault Refusal := .next (s.setI (glyphAddr (s.lowNibble x)))

/-- LD B, Vx (R183). -/
def execLdB (x : Reg) (s : State) : Host.Outcome State Fault Refusal := .next (s.storeBytes s.i (bcdDigits (s.reg x)))

/-- LD [I], Vx (R185). -/
def execLdMemVx (x : Reg) (s : State) : Host.Outcome State Fault Refusal := .next (s.storeBytes s.i (s.regsUpTo x))

/-- LD Vx, [I] (R186). -/
def execLdVxMem (x : Reg) (s : State) : Host.Outcome State Fault Refusal := .next (s.loadRegs x)

end Sys2Proof.Machine
end

