-- ==== Sys2Proof/Machine/Step.lean ====
section
/-! DEFINITION. The step of the core (spec 40_flow.md R120): one fetch, one decode, one execute. -/

namespace Sys2Proof.Machine

/-- One step (R120). A faulted core does nothing (R247); a decode non-match only advances `pc` (R100). The undoing of
a raised fault's step is in `State.raise`, since the check precedes every other write (R244). -/
def step (s : State) : Host.Outcome State Fault Refusal :=
  match s.fault with
  | .none =>
    match decode s.fetchWord with
    | .instr i => exec i s.advance
    | .nonMatch _ => execNonMatch s.advance
  | .stackOverflow | .stackUnderflow => .next s

/-- The state with the instruction word `w` of `nbits` bits, as the opcode table numbers them, stored where the next
step fetches, high byte first (R63). The fetch also needs `fault = None` (R120; log entry 8). -/
def State.withFetchWord (s : State) (nbits w : Nat) : State :=
  let word : Word := BitVec.ofNat 16 (w % 2 ^ nbits)
  { s.storeBytes s.pc [word.highByte, word.lowByte] with fault := .none }

end Sys2Proof.Machine
end

