-- ==== Sys2Proof/Machine/External.lean ====
section
/-! DEFINITION. The operations of the host at the block's boundary and the block's outputs (spec 10_state.md R40, R41;
60_exceptions.md R250 to R254; 70_reset_and_hazards.md R280 to R286), and the runs their interleaving admits (R243). -/

namespace Sys2Proof.Machine

/-! ## Reset and load -/

/-- Reset with the parameter FONT (R280, R282): zero everywhere, then the 80 bytes of FONT from 0x000 on. -/
def resetWith (font : Vector Byte Config.fontSize) : State :=
  State.reset.storeBytes Config.fontBase font.toList

/-- What a load answers (R284). -/
inductive LoadResult where
  /-- The image is in memory. -/
  | loaded (s : State)
  /-- `load_error`: the image is too long, nothing is written. It is no fault of the core. -/
  | loadError
  deriving DecidableEq, Repr

/-- Load a ROM image verbatim at 0x200 (R284). The image is not validated (R285). -/
def load (rom : List Byte) (s : State) : LoadResult :=
  if rom.length > Config.romMax then .loadError else .loaded (s.storeBytes Config.loadBase rom)

/-- Launch: reset followed by one load (R286). -/
def launch (font : Vector Byte Config.fontSize) (rom : List Byte) : LoadResult := load rom (resetWith font)

/-! ## Operations between steps -/

/-- A timer counts down toward 0, not below (R250). -/
def countDown (b : Byte) : Byte := if b = 0 then 0 else b - 1

/-- Timer tick (R250). -/
def tick (s : State) : State := { s with dt := countDown s.dt, st := countDown s.st }

/-- Key-state update: the frame's keys become the previous ones (R252). -/
def keyUpdate (keysIn : BitVec 16) (s : State) : State := { s with keysPrev := s.keysCur, keysCur := keysIn }

/-- What a display read returns: one atomic snapshot (R253). -/
structure DisplaySnapshot where
  disp : Vector Row 32
  changed : Bool
  deriving DecidableEq, Repr

/-- Display read: a pure observation (R253). -/
def displayRead (s : State) : DisplaySnapshot × State := (⟨s.disp, s.changed⟩, s)

/-- Display acknowledge (R254). -/
def displayAck (s : State) : State := { s with changed := false }

/-! ## Outputs -/

/-- The level outputs of the block (R41). -/
structure Outputs where
  dispOut : Vector Row 32
  changedOut : Bool
  tone : Bool
  dtOut : Byte
  stOut : Byte
  faultOut : BitVec 2
  deriving DecidableEq, Repr

/-- `tone`: the sound timer is not zero (R251). -/
def State.tone (s : State) : Bool := s.st != 0

/-- The level outputs are functions of the state (R41). -/
def State.outputs (s : State) : Outputs := ⟨s.disp, s.changed, s.tone, s.dt, s.st, s.fault.code⟩

/-- `undef` during the step that starts from this state: its word is a decode non-match (R258). A faulted core fetches
no word (R120; log entry 7). -/
def State.undef (s : State) : Bool :=
  match s.fault with
  | .none =>
    match decode s.fetchWord with
    | .instr _ => false
    | .nonMatch _ => true
  | .stackOverflow | .stackUnderflow => false

/-! ## Runs -/

/-- The moves admitted after launch (R243, R286). -/
inductive Move where
  /-- The core's step, with the byte on the `rnd` input. -/
  | step (rnd : Byte)
  | tick
  | keyUpdate (keysIn : BitVec 16)
  | displayRead
  | displayAck
  deriving DecidableEq, Repr

/-- One step with the free input `rnd` (R120), which is an input of that step alone (R37). -/
def stepWith (rnd : Byte) (s : State) : Host.Outcome State Fault Refusal :=
  match step { s with rnd := some rnd } with
  | .next t => .next { t with rnd := none }
  | .fault r => .fault r
  | .refused r => .refused r

/-- One atomic transition (R40). -/
def Move.apply (m : Move) (s : State) : Host.Outcome State Fault Refusal :=
  match m with
  | .step rnd => stepWith rnd s
  | .tick => .next (Machine.tick s)
  | .keyUpdate keysIn => .next (Machine.keyUpdate keysIn s)
  | .displayRead => .next (Machine.displayRead s).2
  | .displayAck => .next (Machine.displayAck s)

/-- A schedule: the moves in order, every interleaving admitted (R243). -/
def runMoves : List Move → State → Host.Outcome State Fault Refusal
  | [], s => .next s
  | m :: ms, s =>
    match m.apply s with
    | .next t => runMoves ms t
    | .fault r => .fault r
    | .refused r => .refused r

/-- A state of some run: a launch with some FONT and ROM, then some schedule (R286). -/
def Reachable (s : State) : Prop :=
  ∃ font rom s₀ ms, launch font rom = .loaded s₀ ∧ runMoves ms s₀ = .next s

end Sys2Proof.Machine
end

