-- ==== Sys2Proof/Safety.lean ====
section
/-! DEFINITION. What claims are stated in: a safe state and the invariant (spec 10_state.md R38; 60_exceptions.md
R245 to R247), the end of a run (70_reset_and_hazards.md R298), and the parts of the state, with what an instruction
may write (10_state.md R42). -/

namespace Sys2Proof.Machine

/-- No stack fault has been met (R247). A faulted state is never the end of a successful run. -/
def State.Safe (s : State) : Prop := s.fault = .none

/-- What every reachable state satisfies. The widths of R38 are in the types; the rest is here. -/
structure Invariant (s : State) : Prop where
  /-- Memory is in its canonical form. -/
  memory : Memory.wf s.mem = true
  /-- Slot 0 is never written (R27, R38). -/
  slotZero : s.stack[0] = 0
  /-- After a stack overflow the stack is full and `pc` is at the CALL (R245). -/
  overflow : s.fault = .stackOverflow → s.sp = 15 ∧ ∃ nnn, decode s.fetchWord = .instr (.call nnn)
  /-- After a stack underflow the stack is empty and `pc` is at the RET (R246). -/
  underflow : s.fault = .stackUnderflow → s.sp = 0 ∧ decode s.fetchWord = .instr .ret

/-- Parked: not faulted, and a step maps the state to itself (R298). -/
def State.Parked (s : State) : Prop := s.fault = .none ∧ step s = .next s

/-- The program has finished: not faulted, and the word at `pc` is a JP to its own address (R298). -/
def State.Finished (s : State) : Prop := s.fault = .none ∧ decode s.fetchWord = .instr (.jp s.pc)

/-! ## Parts of the state -/

/-- A part of the state that a statement can say is unchanged: a register, a byte of memory, a row, a slot. -/
inductive Part where
  | mem (a : Addr)
  | v (x : Reg)
  | i
  | pc
  | stack (k : Fin 16)
  | sp
  | dt
  | st
  | row (y : Fin 32)
  | changed
  | keysCur
  | keysPrev
  | fault
  /-- The model's own two fields for the random input (log entry 2). -/
  | random
  deriving DecidableEq, Repr

/-- The part is the same in both states. -/
def Part.same (p : Part) (s t : State) : Prop :=
  match p with
  | .mem a => t.byteAt a = s.byteAt a
  | .v x => t.reg x = s.reg x
  | .i => t.i = s.i
  | .pc => t.pc = s.pc
  | .stack k => t.stack[k] = s.stack[k]
  | .sp => t.sp = s.sp
  | .dt => t.dt = s.dt
  | .st => t.st = s.st
  | .row y => t.disp[y] = s.disp[y]
  | .changed => t.changed = s.changed
  | .keysCur => t.keysCur = s.keysCur
  | .keysPrev => t.keysPrev = s.keysPrev
  | .fault => t.fault = s.fault
  | .random => t.rnd = s.rnd ∧ t.draws = s.draws

/-- The frame: every part of the state but those listed is the same in both states (R11). -/
def Frame (written : List Part) (s t : State) : Prop := ∀ p, p ∉ written → p.same s t

/-- All rows of the display. -/
def allRows : List Part := (List.finRange 32).map Part.row

/-- The bytes of memory at `n` ascending addresses. -/
def memParts (a : Addr) (n : Nat) : List Part := (List.range n).map fun k => .mem (a + BitVec.ofNat 12 k)

/-- The registers `V[0]` to `V[X]`. -/
def regParts (x : Reg) : List Part := ((List.finRange 16).filter (· ≤ x)).map Part.v

/-- The `w` entries of the access summary (R42), besides `pc`, for an instruction executed in a state; the addresses
are those of R184. CALL and RET also write `fault`, where they raise it (R241). -/
def writeSummary (s : State) : Instr → List Part
  | .cls => .changed :: allRows
  | .ret => [.sp, .fault]
  | .jp _ => []
  | .call _ => [.sp, .stack (s.sp + 1).toFin, .fault]
  | .seImm _ _ | .sneImm _ _ | .seReg _ _ _ | .sneReg _ _ _ => []
  | .ldImm x _ | .addImm x _ | .ldReg x _ | .orReg x _ | .andReg x _ | .xorReg x _ => [.v x]
  | .addReg x _ | .sub x _ | .subn x _ | .shr x _ | .shl x _ => [.v regF, .v x]
  | .ldI _ => [.i]
  | .jpV0 _ => []
  | .rnd x _ => [.v x, .random]
  | .drw _ _ _ => .v regF :: .changed :: allRows
  | .skp _ | .sknp _ => []
  | .ldVxDt x | .ldVxK x => [.v x]
  | .ldDtVx _ => [.dt]
  | .ldStVx _ => [.st]
  | .addI _ | .ldF _ => [.i]
  | .ldB _ => memParts s.i 3
  | .ldMemVx x => memParts s.i (x.val + 1)
  | .ldVxMem x => regParts x

/-- The `pc` after an instruction, by the table of R24, for an instruction executed in a state after its fetch: `s.pc`
is R24's `a + 2` and `s.pc - 2` its `a`. -/
def pcAfter (s : State) : Instr → Addr
  | .ret => if s.sp = 0 then s.pc - 2 else s.stack[s.sp.toNat]
  | .jp nnn => nnn
  | .call nnn => if s.sp = 15 then s.pc - 2 else nnn
  | .jpV0 nnn => nnn + (s.reg reg0).setWidth 12
  | .seImm x nn => if s.reg x = nn then s.pc + 2 else s.pc
  | .sneImm x nn => if s.reg x = nn then s.pc else s.pc + 2
  | .seReg x y _ => if s.reg x = s.reg y then s.pc + 2 else s.pc
  | .sneReg x y _ => if s.reg x = s.reg y then s.pc else s.pc + 2
  | .skp x => if s.keysCur.getLsbD ((s.reg x).toNat % 16) then s.pc + 2 else s.pc
  | .sknp x => if s.keysCur.getLsbD ((s.reg x).toNat % 16) then s.pc else s.pc + 2
  | .ldVxK _ => if s.keysCur &&& ~~~s.keysPrev = 0 then s.pc - 2 else s.pc
  | .cls | .ldImm _ _ | .addImm _ _ | .ldReg _ _ | .orReg _ _ | .andReg _ _ | .xorReg _ _ => s.pc
  | .addReg _ _ | .sub _ _ | .shr _ _ | .subn _ _ | .shl _ _ | .rnd _ _ | .ldI _ | .drw _ _ _ => s.pc
  | .ldVxDt _ | .ldDtVx _ | .ldStVx _ | .addI _ | .ldF _ | .ldB _ | .ldMemVx _ | .ldVxMem _ => s.pc

/-! ## Pixels and sprites -/

/-- The pixel at a row and a column: column `c` is bit `63 - c` (R203). -/
def State.pixel (s : State) (row : Fin 32) (col : Fin 64) : Bool := s.disp[row].getLsbD (63 - col.val)

/-- Pixel `j` of sprite row `r`: bit `7 - j` of the byte at `(I + r) mod 4096` (R203). -/
def State.spriteBit (s : State) (r j : Nat) : Bool := (s.byteAt (s.i + BitVec.ofNat 12 r)).getLsbD (7 - j)

/-- A sprite 1 of `DRW Vx, Vy, N` lands on this pixel: sprite pixel `j` of row `r` lands at column
`(VX mod 64 + j) mod 64` of row `(VY mod 32 + r) mod 32` (R203). -/
def State.SpriteAt (s : State) (x y : Reg) (n : BitVec 4) (row : Fin 32) (col : Fin 64) : Prop :=
  ∃ r j, r < n.toNat ∧ j < 8 ∧ row.val = ((s.reg y).toNat % 32 + r) % 32 ∧
    col.val = ((s.reg x).toNat % 64 + j) % 64 ∧ s.spriteBit r j = true

/-! ## Key edges -/

/-- Key `k` is pressed in this frame and was not in the previous one (R222). -/
def State.RisingEdge (s : State) (k : Fin 16) : Prop :=
  s.keysCur.getLsbD k.val = true ∧ s.keysPrev.getLsbD k.val = false

end Sys2Proof.Machine
end

