-- ==== Sys2Proof/Certificates/Slice0/Obligations.lean ====
section
/-! DEFINITION. The statements for the provers, from the numbered rules of spec/. In a statement about `exec i s`, `s`
is the state after the fetch, its `pc` already advanced by 2 (spec 00_scope.md R10); the statement about the step says
how a step reaches it. `Frame ps s t` says that every part of the state not in `ps` is the same in `t` as in `s`: each
register, each byte of memory, each stack slot, each display row and every other register of 10_state.md R20. That what a
rule does not mention is unchanged is R11, the spec's decision D13. Where a statement rests on another choice the spec
marks as its own (its decisions D1 to D26: log entry 5) or on one of this model's (the other log entries), its
docstring says so. -/

open Sys2Proof Sys2Proof.Machine

/-! ## Reset and load -/

/-- R280, R41: after reset, with any FONT, every piece of state has its reset value, and every level output shows it.
(The spec's decisions D1, D8, D9, D15 and, for `tone`, D20.) -/
def Obligations.ResetGivesEveryPieceOfStateItsValue : Prop :=
  ∀ font : Vector Byte 80, ∃ s, resetWith font = s ∧
    (∀ a : Addr, s.byteAt a = if h : a.toNat < 80 then font[a.toNat] else 0) ∧
    (∀ x : Reg, s.reg x = 0) ∧ s.i = 0 ∧ s.pc = 0x200 ∧ (∀ k : Fin 16, s.stack[k] = 0) ∧ s.sp = 0 ∧
    s.dt = 0 ∧ s.st = 0 ∧ (∀ y : Fin 32, s.disp[y] = 0) ∧ s.changed = false ∧
    s.keysCur = 0 ∧ s.keysPrev = 0 ∧ s.fault = .none ∧
    s.outputs.dispOut = Vector.replicate 32 0 ∧ s.outputs.changedOut = false ∧ s.outputs.tone = false ∧
    s.outputs.dtOut = 0 ∧ s.outputs.stOut = 0 ∧ s.outputs.faultOut = 0

/-- The machine's `State.reset` is the reset with the default FONT of R283. (The table is general knowledge: log entry
1; the two fields of the random input are the model's own: log entry 2.) -/
def Obligations.StateResetIsTheResetOfTheDefaultFont : Prop :=
  ∃ font : Vector Byte 80, font.toList = defaultFont ∧ resetWith font = State.reset ∧
    State.reset.rnd = none ∧ State.reset.draws = 0

/-- R284: a load writes exactly the image at 0x200, or rejects an image over 3584 bytes and writes nothing. (The
premise is the canonical form of the memory, which every run keeps: log entry 10.) -/
def Obligations.LoadWritesTheImageOrRejectsIt : Prop :=
  ∀ (rom : List Byte) (s : State), Memory.wf s.mem = true →
    (rom.length ≤ 3584 → ∃ t, load rom s = .loaded t ∧
      (∀ (k : Nat) (h : k < rom.length), t.byteAt (0x200 + BitVec.ofNat 12 k) = rom[k]) ∧
      Frame (memParts 0x200 rom.length) s t) ∧
    (rom.length > 3584 → load rom s = .loadError)

/-! ## The step, faults and runs -/

/-- R120, R63: with `w` the two bytes at `pc`, high byte first, a step does nothing when faulted; else it executes the
instruction `w` decodes to with `pc` advanced by 2, or, for a non-match, only advances `pc`. (A faulted core's doing
nothing is the spec's decision D8.) -/
def Obligations.StepRunsTheDecodedInstruction : Prop :=
  ∀ (s : State) (w : Word), w.toNat = (s.byteAt s.pc).toNat * 256 + (s.byteAt (s.pc + 1)).toNat →
    (s.fault ≠ .none → step s = .next s) ∧
    (s.fault = .none → ∀ i, decode w = .instr i → step s = exec i { s with pc := s.pc + 2 }) ∧
    (s.fault = .none → ∀ why, decode w = .nonMatch why → step s = .next { s with pc := s.pc + 2 })

/-- R120, R240, R243: the step and every host operation are total, so every schedule runs from every state to a state,
with no fault or refusal of the interface. (The stack faults are next states: log entry 4; what a schedule is: log
entry 3.) -/
def Obligations.EveryScheduleRunsToAState : Prop :=
  ∀ (ms : List Move) (s : State), ∃ t, runMoves ms s = .next t

/-- R247: raising a fault is precise, and a faulted core is stuck. (The spec's decisions D7 and D8.) -/
def Obligations.FaultsArePreciseAndStuck : Prop :=
  (∀ s t, s.fault = .none → step s = .next t → t.fault ≠ .none → t = { s with fault := t.fault }) ∧
  (∀ s, s.fault ≠ .none → step s = .next s)

/-- R241: a step raises StackOverflow exactly on a CALL with `sp = 15`, and StackUnderflow exactly on a RET with `sp =
0`; the codes are 1 and 2, and 0 is no fault. (The spec's decisions D7 and D8.) -/
def Obligations.OnlyFullCallAndEmptyRetFault : Prop :=
  (∀ s t, s.fault = .none → step s = .next t →
    (t.fault = .stackOverflow ↔ s.sp = 15 ∧ ∃ nnn, decode s.fetchWord = .instr (.call nnn)) ∧
    (t.fault = .stackUnderflow ↔ s.sp = 0 ∧ decode s.fetchWord = .instr .ret)) ∧
  FaultCode.none.code = 0 ∧ FaultCode.stackOverflow.code = 1 ∧ FaultCode.stackUnderflow.code = 2

/-- R248, R262: once faulted, no schedule of moves changes the fault, `pc`, the registers, memory, the stack or the
display; what ticks, key updates and acknowledges write, and the model's own two fields for the random input (log entry
2), is all that can change. (The spec's decision D8; that a schedule holds no reset, which alone clears a fault, and no
load: log entry 3, the spec's decisions D16 and D19.) -/
def Obligations.FaultOutlivesEverySchedule : Prop :=
  ∀ (ms : List Move) (s t : State), s.fault ≠ .none → runMoves ms s = .next t →
    Frame [.dt, .st, .changed, .keysCur, .keysPrev, .random] s t

/-! ## Encoding -/

/-- R91, R92, R96: decoding the word of an instruction gives the instruction, with every operand at every value; and a
word that decodes to an instruction is that instruction's word, so no bit is dropped. (Ignored bits are kept in the
syntax: log entry 11; the numbering is the spec's decisions D2 to D6.) -/
def Obligations.DecodeAndEncodeAgree : Prop :=
  (∀ i : Instr, decode (encode i) = .instr i) ∧ (∀ (w : Word) (i : Instr), decode w = .instr i → encode i = w)

/-- R96: the 34 rows are disjoint, and a word decodes to the instruction of exactly the row it selects. (The numbering
is the spec's decisions D3 to D6.) -/
def Obligations.DecodeFollowsTheOpcodeTable : Prop :=
  opcodeTable.map OpRow.num = (List.range 34).map (· + 1) ∧
  (∀ w, ∀ r ∈ opcodeTable, ∀ r' ∈ opcodeTable, r.selects w = true → r'.selects w = true → r = r') ∧
  (∀ w i, decode w = .instr i → ∃ r ∈ opcodeTable, r.num = i.row ∧ r.selects w = true) ∧
  (∀ w, ∀ r ∈ opcodeTable, r.selects w = true → ∃ i, decode w = .instr i ∧ i.row = r.num)

/-- R97, R99: the words that select no instruction are exactly these: family 0 but for 00E0 and 00EE, and the unused
selectors of families 8 (low nibble), E and F (low byte). (The spec's decisions D4 and D6.) -/
def Obligations.NonMatchWordsAreExactlyThese : Prop :=
  ∀ w : Word, (∃ why, decode w = .nonMatch why) ↔
    (w.toNat / 4096 = 0x0 ∧ w ≠ 0x00E0 ∧ w ≠ 0x00EE) ∨
    (w.toNat / 4096 = 0x8 ∧ w.toNat % 16 ∈ [0x8, 0x9, 0xA, 0xB, 0xC, 0xD, 0xF]) ∨
    (w.toNat / 4096 = 0xE ∧ w.toNat % 256 ∉ [0x9E, 0xA1]) ∨
    (w.toNat / 4096 = 0xF ∧ w.toNat % 256 ∉ [0x07, 0x0A, 0x15, 0x18, 0x1E, 0x29, 0x33, 0x55, 0x65])

/-- R100, R258: a step on a decode non-match advances `pc` by 2 and changes nothing else, and `undef` is 1 exactly
during such a step. (The output is the spec's decision D23; that a faulted core shows 0 is log entry 7.) -/
def Obligations.NonMatchIsANoOperation : Prop :=
  ∀ s : State, (s.undef = true ↔ s.fault = .none ∧ ∃ why, decode s.fetchWord = .nonMatch why) ∧
    (s.undef = true → ∃ t, step s = .next t ∧ t.pc.toNat = (s.pc.toNat + 2) % 4096 ∧ Frame [.pc] s t)

/-- R91, R95: words written out from the encodings decode to the instructions they stand for. (The spec's decisions D2
to D6.) -/
def Obligations.WrittenOutWordsDecode : Prop :=
  decode 0x6A02 = .instr (.ldImm 0xA 0x02) ∧ decode 0x1200 = .instr (.jp 0x200) ∧ decode 0x00E0 = .instr .cls ∧
  decode 0xD12A = .instr (.drw 1 2 0xA) ∧ decode 0x8AB4 = .instr (.addReg 0xA 0xB) ∧
  decode 0xF965 = .instr (.ldVxMem 9) ∧ decode 0xE3A1 = .instr (.sknp 3) ∧ decode 0xBFFF = .instr (.jpV0 0xFFF) ∧
  decode 0x5AB7 = .instr (.seReg 0xA 0xB 7) ∧ decode 0x0123 = .nonMatch .familyZero ∧
  decode 0x8AB8 = .nonMatch .aluSelector ∧ decode 0xE39F = .nonMatch .keySelector ∧
  decode 0xF966 = .nonMatch .miscSelector

/-! ## Control transfer -/

/-- R121, R129: JP and JP V0 set `pc`, modulo 4096, and change nothing else. -/
def Obligations.JumpsSetThePc : Prop :=
  (∀ s nnn, ∃ t, exec (.jp nnn) s = .next t ∧ t.pc = nnn ∧ Frame [.pc] s t) ∧
  (∀ s nnn, ∃ t, exec (.jpV0 nnn) s = .next t ∧ t.pc.toNat = (nnn.toNat + (s.reg 0).toNat) % 4096 ∧ Frame [.pc] s t)

/-- R122, R245: CALL pushes the advanced `pc` above `sp` and jumps; with a full stack it only raises StackOverflow,
with `pc` at the CALL. (The overflow clause is the spec's decision D7.) -/
def Obligations.CallPushesOrOverflows : Prop :=
  ∀ s nnn,
    (s.sp ≠ 15 → ∃ t, exec (.call nnn) s = .next t ∧ t.sp.toNat = s.sp.toNat + 1 ∧
      t.stack[(s.sp + 1).toFin] = s.pc ∧ t.pc = nnn ∧ Frame [.pc, .sp, .stack (s.sp + 1).toFin] s t) ∧
    (s.sp = 15 → ∃ t, exec (.call nnn) s = .next t ∧ t.fault = .stackOverflow ∧ t.pc = s.pc - 2 ∧
      Frame [.pc, .fault] s t)

/-- R123, R246: RET jumps to `stack[sp]` and decrements `sp`, leaving the slot; with an empty stack it only raises
StackUnderflow, with `pc` at the RET. (The order of the pop is the spec's decision D22, the underflow clause D7.) -/
def Obligations.RetPopsOrUnderflows : Prop :=
  ∀ s : State,
    (s.sp ≠ 0 → ∃ t, exec .ret s = .next t ∧ t.pc = s.stack[s.sp.toNat] ∧ t.sp.toNat = s.sp.toNat - 1 ∧
      Frame [.pc, .sp] s t) ∧
    (s.sp = 0 → ∃ t, exec .ret s = .next t ∧ t.fault = .stackUnderflow ∧ t.pc = s.pc - 2 ∧ Frame [.pc, .fault] s t)

/-- R123: a CALL followed at once by a RET comes back to the instruction after the CALL, with `sp` and everything else
as before it but for the slot pushed. -/
def Obligations.CallThenRetComesBack : Prop :=
  ∀ s nnn, s.fault = .none → s.sp ≠ 15 → decode s.fetchWord = .instr (.call nnn) →
    decode { s with pc := nnn }.fetchWord = .instr .ret →
    ∃ t u, step s = .next t ∧ step t = .next u ∧ u.pc = s.pc + 2 ∧ Frame [.pc, .stack (s.sp + 1).toFin] s u

/-- R124 to R127: the four compare-and-skips advance `pc` by 2 more, modulo 4096, when their condition holds, whatever
the ignored low nibble; nothing else changes. (That the low nibble of 5XYN and 9XYN is ignored is the spec's decision
D5: log entries 5 and 11.) -/
def Obligations.SkipsAdvanceWhenTheConditionHolds : Prop :=
  (∀ s x nn, ∃ t, exec (.seImm x nn) s = .next t ∧
    t.pc.toNat = (s.pc.toNat + if s.reg x = nn then 2 else 0) % 4096 ∧ Frame [.pc] s t) ∧
  (∀ s x nn, ∃ t, exec (.sneImm x nn) s = .next t ∧
    t.pc.toNat = (s.pc.toNat + if s.reg x ≠ nn then 2 else 0) % 4096 ∧ Frame [.pc] s t) ∧
  (∀ s x y n, ∃ t, exec (.seReg x y n) s = .next t ∧
    t.pc.toNat = (s.pc.toNat + if s.reg x = s.reg y then 2 else 0) % 4096 ∧ Frame [.pc] s t) ∧
  (∀ s x y n, ∃ t, exec (.sneReg x y n) s = .next t ∧
    t.pc.toNat = (s.pc.toNat + if s.reg x ≠ s.reg y then 2 else 0) % 4096 ∧ Frame [.pc] s t)

/-- R221, R225, R226: SKP and SKNP skip on the state of the key numbered by the low four bits of `VX`. -/
def Obligations.KeySkipsTestTheLowNibblesKey : Prop :=
  (∀ s x, ∃ t, exec (.skp x) s = .next t ∧
    t.pc.toNat = (s.pc.toNat + if s.keysCur.getLsbD ((s.reg x).toNat % 16) = true then 2 else 0) % 4096 ∧
    Frame [.pc] s t) ∧
  (∀ s x, ∃ t, exec (.sknp x) s = .next t ∧
    t.pc.toNat = (s.pc.toNat + if s.keysCur.getLsbD ((s.reg x).toNat % 16) = false then 2 else 0) % 4096 ∧
    Frame [.pc] s t)

/-- R24: `pc` after every instruction is what the table gives. (The table is the spec's restatement of the
instructions' rules.) -/
def Obligations.PcAfterEveryInstruction : Prop :=
  ∀ (i : Instr) (s : State), ∃ t, exec i s = .next t ∧ t.pc = pcAfter s i

/-! ## Registers and arithmetic -/

/-- R150 to R152: load immediate, add immediate (modulo 256, no flag) and move write `VX` alone. -/
def Obligations.LoadsMovesAndAddImmediate : Prop :=
  (∀ s x nn, ∃ t, exec (.ldImm x nn) s = .next t ∧ t.reg x = nn ∧ Frame [.v x] s t) ∧
  (∀ s x nn, ∃ t, exec (.addImm x nn) s = .next t ∧ (t.reg x).toNat = ((s.reg x).toNat + nn.toNat) % 256 ∧
    Frame [.v x] s t) ∧
  (∀ s x y, ∃ t, exec (.ldReg x y) s = .next t ∧ t.reg x = s.reg y ∧ Frame [.v x] s t)

/-- R153 to R155: OR, AND and XOR work bit by bit and write `VX` alone. (That VF keeps its value is R163, the spec's
decision D13: log entry 5.) -/
def Obligations.LogicWorksBitByBit : Prop :=
  (∀ s x y, ∃ t, exec (.orReg x y) s = .next t ∧ Frame [.v x] s t ∧
    ∀ k, k < 8 → (t.reg x).getLsbD k = ((s.reg x).getLsbD k || (s.reg y).getLsbD k)) ∧
  (∀ s x y, ∃ t, exec (.andReg x y) s = .next t ∧ Frame [.v x] s t ∧
    ∀ k, k < 8 → (t.reg x).getLsbD k = ((s.reg x).getLsbD k && (s.reg y).getLsbD k)) ∧
  (∀ s x y, ∃ t, exec (.xorReg x y) s = .next t ∧ Frame [.v x] s t ∧
    ∀ k, k < 8 → (t.reg x).getLsbD k = ((s.reg x).getLsbD k ^^ (s.reg y).getLsbD k))

/-- R157, R162: ADD puts the sum modulo 256 in `VX`, and the carry in VF unless `VX` is VF. (R162 is the spec's
derivation from R156; that the sum is of the old VF when `VY` is VF is its decision D14: log entry 5.) -/
def Obligations.AddSetsSumAndCarry : Prop :=
  ∀ s x y, ∃ t, exec (.addReg x y) s = .next t ∧
    (t.reg x).toNat = ((s.reg x).toNat + (s.reg y).toNat) % 256 ∧
    (x ≠ 15 → t.reg 15 = if (s.reg x).toNat + (s.reg y).toNat > 255 then 1 else 0) ∧ Frame [.v 15, .v x] s t

/-- R158, R160, R162: SUB and SUBN put the difference modulo 256 in `VX`, and 1 for no borrow in VF unless `VX` is VF.
(R162 is the spec's derivation from R156; that the difference is of the old VF when `VY` is VF is its decision D14: log
entry 5.) -/
def Obligations.SubtractsSetDifferenceAndNoBorrow : Prop :=
  (∀ s x y, ∃ t, exec (.sub x y) s = .next t ∧
    (t.reg x).toNat = ((s.reg x).toNat + 256 - (s.reg y).toNat) % 256 ∧
    (x ≠ 15 → t.reg 15 = if (s.reg x).toNat ≥ (s.reg y).toNat then 1 else 0) ∧ Frame [.v 15, .v x] s t) ∧
  (∀ s x y, ∃ t, exec (.subn x y) s = .next t ∧
    (t.reg x).toNat = ((s.reg y).toNat + 256 - (s.reg x).toNat) % 256 ∧
    (x ≠ 15 → t.reg 15 = if (s.reg y).toNat ≥ (s.reg x).toNat then 1 else 0) ∧ Frame [.v 15, .v x] s t)

/-- R159, R161, R162: SHR halves and SHL doubles modulo 256, with the bit shifted out in VF unless `VX` is VF; `Y` is
ignored. (R162 is the spec's derivation from R156; that `VY` is neither read nor written is its decision D13: log
entries 5 and 11.) -/
def Obligations.ShiftsSetTheBitShiftedOut : Prop :=
  (∀ s x y, ∃ t, exec (.shr x y) s = .next t ∧ (t.reg x).toNat = (s.reg x).toNat / 2 ∧
    (x ≠ 15 → (t.reg 15).toNat = (s.reg x).toNat % 2) ∧ Frame [.v 15, .v x] s t) ∧
  (∀ s x y, ∃ t, exec (.shl x y) s = .next t ∧ (t.reg x).toNat = (s.reg x).toNat * 2 % 256 ∧
    (x ≠ 15 → (t.reg 15).toNat = (s.reg x).toNat / 128) ∧ Frame [.v 15, .v x] s t)

/-- R164: RND writes the random byte of the step AND the mask, for every byte the host may supply; every other
instruction does the same whatever is on the random input. (The two fields that stand for the input are the model's
own: log entry 2.) -/
def Obligations.RndAloneReadsTheRandomByte : Prop :=
  (∀ (s : State) (x : Reg) (nn b : Byte), ∃ t, exec (.rnd x nn) { s with rnd := some b } = .next t ∧
    t.reg x = b &&& nn ∧ Frame [.v x, .random] s t) ∧
  (∀ (i : Instr) (s : State) (r : Option Byte) (d : Nat), (∀ x nn, i ≠ .rnd x nn) →
    ∃ t, exec i s = .next t ∧ exec i { s with rnd := r, draws := d } = .next { t with rnd := r, draws := d })

/-- RND in a state whose host supplied no byte runs too: it writes the free value of this draw AND the mask, and the
next draw is another one. (The model's own: log entry 2; nothing is known of a free value.) -/
def Obligations.RndWithoutASuppliedByteRunsOnAFreeOne : Prop :=
  ∀ s x nn, s.rnd = none → ∃ t, exec (.rnd x nn) s = .next t ∧ t.reg x = Config.freeRnd s.draws &&& nn ∧
    t.rnd = none ∧ t.draws = s.draws + 1 ∧ Frame [.v x, .random] s t

/-! ## Index register and memory -/

/-- R180 to R182: LD I, ADD I (modulo 4096, no flag) and LD F (the low nibble times 5) write `I` alone. (That ADD I
leaves VF alone is the spec's decision D13: log entry 5.) -/
def Obligations.IndexRegisterWrites : Prop :=
  (∀ s nnn, ∃ t, exec (.ldI nnn) s = .next t ∧ t.i = nnn ∧ Frame [.i] s t) ∧
  (∀ s x, ∃ t, exec (.addI x) s = .next t ∧ t.i.toNat = (s.i.toNat + (s.reg x).toNat) % 4096 ∧ Frame [.i] s t) ∧
  (∀ s x, ∃ t, exec (.ldF x) s = .next t ∧ t.i.toNat = (s.reg x).toNat % 16 * 5 ∧ Frame [.i] s t)

/-- R183: LD B stores the hundreds, tens and ones of `VX` at `I`, `I + 1`, `I + 2`, and nothing else. (That `I` keeps
its value is R184, the spec's decision D13: log entry 5; the bytes read back in a canonical memory: log entry 10.) -/
def Obligations.BcdStoresThreeDigits : Prop :=
  ∀ s x, ∃ t, exec (.ldB x) s = .next t ∧ Frame [.mem (s.ea 0), .mem (s.ea 1), .mem (s.ea 2)] s t ∧
    (Memory.wf s.mem = true →
      (t.byteAt (s.ea 0)).toNat = (s.reg x).toNat / 100 ∧ (t.byteAt (s.ea 1)).toNat = (s.reg x).toNat / 10 % 10 ∧
      (t.byteAt (s.ea 2)).toNat = (s.reg x).toNat % 10)

/-- R185: LD [I], Vx stores `V0` to `VX` at `I` on, each address modulo 4096, and nothing else. (That `I` keeps its
value is R184, the spec's decision D13: log entry 5; the bytes are read back in a canonical memory: log entry 10.) -/
def Obligations.BulkStoreWritesTheRegisters : Prop :=
  ∀ s x, ∃ t, exec (.ldMemVx x) s = .next t ∧
    (∀ a, (∀ k : Reg, k ≤ x → a ≠ s.ea k.val) → t.byteAt a = s.byteAt a) ∧
    (Memory.wf s.mem = true → ∀ k : Reg, k ≤ x → t.byteAt (s.ea k.val) = s.reg k) ∧
    Frame (memParts s.i (x.val + 1)) s t

/-- R186: LD Vx, [I] loads `V0` to `VX` from `I` on, each address modulo 4096, and changes nothing else. (That `I`
keeps its value is R184, the spec's decision D13: log entry 5.) -/
def Obligations.BulkLoadReadsTheRegisters : Prop :=
  ∀ s x, ∃ t, exec (.ldVxMem x) s = .next t ∧ (∀ k : Reg, k ≤ x → t.reg k = s.byteAt (s.ea k.val)) ∧
    (∀ k : Reg, x < k → t.reg k = s.reg k) ∧ Frame (regParts x) s t

/-- R74: a byte that LD [I], Vx or LD B, Vx stores over the next instruction, as its high byte or as its low byte, is
the byte the very next step fetches there, wherever the other bytes go. (The spec's derivation from R71 and R120; the
bytes are read back in a canonical memory: log entry 10.) -/
def Obligations.StoredWordIsFetchedNext : Prop :=
  ∀ s x, Memory.wf s.mem = true → s.fault = .none →
    (decode s.fetchWord = .instr (.ldMemVx x) → ∃ t, step s = .next t ∧ t.pc = s.pc + 2 ∧ ∀ k : Reg, k ≤ x →
      (s.ea k.val = s.pc + 2 → t.fetchWord.toNat / 256 = (s.reg k).toNat) ∧
      (s.ea k.val = s.pc + 3 → t.fetchWord.toNat % 256 = (s.reg k).toNat)) ∧
    (decode s.fetchWord = .instr (.ldB x) → ∃ t, step s = .next t ∧ t.pc = s.pc + 2 ∧ ∀ k digit,
      (k, digit) ∈ [(0, (s.reg x).toNat / 100), (1, (s.reg x).toNat / 10 % 10), (2, (s.reg x).toNat % 10)] →
      (s.ea k = s.pc + 2 → t.fetchWord.toNat / 256 = digit) ∧
      (s.ea k = s.pc + 3 → t.fetchWord.toNat % 256 = digit))

/-- 20_memory.md R60: two memories in the canonical form that read alike at every address are equal data. (The form is
the model's own: log entry 10.) -/
def Obligations.CanonicalMemoriesReadingAlikeAreEqual : Prop :=
  ∀ m m' : Memory, Memory.wf m = true → Memory.wf m' = true →
    (∀ a : Addr, Memory.read m a.toNat = Memory.read m' a.toNat) → m = m'

/-! ## Display -/

/-- R200: CLS clears every row and sets `changed`, whatever was on the display; nothing else changes. (That a blank
display too sets `changed` is the spec's decision D25.) -/
def Obligations.ClsBlanksTheDisplay : Prop :=
  ∀ s, ∃ t, exec .cls s = .next t ∧ (∀ row col, t.pixel row col = false) ∧ t.changed = true ∧
    Frame (.changed :: allRows) s t

/-- R201, R203: DRW XORs the sprite onto the display pixel by pixel, wrapping in both directions; VF is 1 exactly when
a sprite 1 fell on a lit pixel, else 0; `changed` is set; nothing else changes. The coordinates are the registers'
values before VF is written. (The spec's decisions D11, D12 and D25.) -/
def Obligations.DrwXorsTheSpritePixelByPixel : Prop :=
  ∀ s x y n, ∃ t, exec (.drw x y n) s = .next t ∧
    (∀ row col, t.pixel row col = true ↔ ¬ (s.pixel row col = true ↔ s.SpriteAt x y n row col)) ∧
    ((∃ row col, s.pixel row col = true ∧ s.SpriteAt x y n row col) → t.reg 15 = 1) ∧
    ((¬ ∃ row col, s.pixel row col = true ∧ s.SpriteAt x y n row col) → t.reg 15 = 0) ∧
    t.changed = true ∧ Frame (.v 15 :: .changed :: allRows) s t

/-- R202: drawing twice, with neither coordinate in VF, restores every row; the second draw reports a collision exactly
when some sprite 1 fell on a pixel that was unlit before the first. (R202 is the spec's derivation from R201.) -/
def Obligations.DrawingTwiceRestoresTheDisplay : Prop :=
  ∀ s x y n, x ≠ 15 → y ≠ 15 → ∃ t u, exec (.drw x y n) s = .next t ∧ exec (.drw x y n) t = .next u ∧
    (∀ row : Fin 32, u.disp[row] = s.disp[row]) ∧
    (u.reg 15 = 1 ↔ ∃ row col, s.pixel row col = false ∧ s.SpriteAt x y n row col)

/-! ## Keys and timers -/

/-- R220, R223, R224: the timer transfers copy a byte and change nothing else; after LD ST, Vx the tone sounds exactly
when the byte written is not zero. (The tone is R251, the spec's decision D20: log entry 5.) -/
def Obligations.TimerTransfers : Prop :=
  (∀ s x, ∃ t, exec (.ldVxDt x) s = .next t ∧ t.reg x = s.dt ∧ Frame [.v x] s t) ∧
  (∀ s x, ∃ t, exec (.ldDtVx x) s = .next t ∧ t.dt = s.reg x ∧ Frame [.dt] s t) ∧
  (∀ s x, ∃ t, exec (.ldStVx x) s = .next t ∧ t.st = s.reg x ∧ t.tone = decide (s.reg x ≠ 0) ∧ Frame [.st] s t)

/-- R222: LD Vx, K stores the lowest rising edge and proceeds; with none, the whole state is as before the fetch. -/
def Obligations.KeyReadTakesTheLowestEdgeOrRetries : Prop :=
  (∀ s x k, s.RisingEdge k → (∀ j, j < k → ¬ s.RisingEdge j) →
    ∃ t, exec (.ldVxK x) s = .next t ∧ (t.reg x).toNat = k.val ∧ Frame [.v x] s t) ∧
  (∀ s x, (∀ k, ¬ s.RisingEdge k) → exec (.ldVxK x) { s with pc := s.pc + 2 } = .next s)

/-- R222, R292: with no edge, and no key update in the schedule, LD Vx, K never completes, however the host steps,
ticks and acknowledges; the model's own two fields for the random input may change (log entry 2). (R292 is the spec's
derivation; what a schedule is: log entry 3, the spec's decision D19.) -/
def Obligations.KeyReadWaitsForAKeyUpdate : Prop :=
  ∀ (ms : List Move) (s t : State) (x : Reg), s.fault = .none → decode s.fetchWord = .instr (.ldVxK x) →
    (∀ k, ¬ s.RisingEdge k) → (∀ m ∈ ms, ∀ keys, m ≠ .keyUpdate keys) → runMoves ms s = .next t →
    Frame [.dt, .st, .changed, .random] s t

/-- R250: `n` ticks lower each timer by `n`, not below 0, faulted or not, and change nothing else. (That a tick works
on a faulted core is R262, the spec's decision D8: log entry 5.) -/
def Obligations.TicksCountDownToZero : Prop :=
  ∀ (n : Nat) (s : State), ∃ t, runMoves (List.replicate n .tick) s = .next t ∧
    t.dt.toNat = s.dt.toNat - n ∧ t.st.toNat = s.st.toNat - n ∧ Frame [.dt, .st] s t

/-- R251: `tone` is 1 exactly when ST is not zero; a tick that brings ST to 0 ends it. (The spec's decision D20.) -/
def Obligations.ToneFollowsTheSoundTimer : Prop :=
  ∀ s : State, (s.outputs.tone = true ↔ s.st ≠ 0) ∧ ((tick s).outputs.tone = true ↔ s.st.toNat ≥ 2)

/-- R41: the level outputs show the state: the rows, the changed flag, whether the sound timer is not zero, the two
timers, and the number of the fault. (The signals are the spec's decision D1, the tone D20, the numbers D8: log
entry 5.) -/
def Obligations.OutputsShowTheState : Prop :=
  ∀ s : State, (∀ y : Fin 32, s.outputs.dispOut[y] = s.disp[y]) ∧ s.outputs.changedOut = s.changed ∧
    (s.outputs.tone = true ↔ s.st ≠ 0) ∧ s.outputs.dtOut = s.dt ∧ s.outputs.stOut = s.st ∧
    (s.outputs.faultOut = 0 ↔ s.fault = .none) ∧ (s.outputs.faultOut = 1 ↔ s.fault = .stackOverflow) ∧
    (s.outputs.faultOut = 2 ↔ s.fault = .stackUnderflow)

/-- R252: a key update moves this frame's keys to the previous frame's and takes the sample, faulted or not, and
changes nothing else; a second with the same sample removes every edge; the first after reset makes every key down in
it an edge. (That it works on a faulted core is R262, the spec's decision D8: log entry 5.) -/
def Obligations.KeyUpdateKeepsTheLastFrame : Prop :=
  (∀ keys s, (keyUpdate keys s).keysPrev = s.keysCur ∧ (keyUpdate keys s).keysCur = keys ∧
    Frame [.keysCur, .keysPrev] s (keyUpdate keys s)) ∧
  (∀ keys s k, ¬ (keyUpdate keys (keyUpdate keys s)).RisingEdge k) ∧
  (∀ font keys (k : Fin 16), (keyUpdate keys (resetWith font)).RisingEdge k ↔ keys.getLsbD k.val = true)

/-- R253, R254: display read returns the rows and the flag and changes nothing; display acknowledge clears the flag
alone. (That the two are separate operations is the spec's decision D1.) -/
def Obligations.DisplayReadAndAcknowledge : Prop :=
  (∀ s, (displayRead s).1.disp = s.disp ∧ (displayRead s).1.changed = s.changed ∧ (displayRead s).2 = s) ∧
  (∀ s, (displayAck s).changed = false ∧ Frame [.changed] s (displayAck s))

/-! ## The whole machine -/

/-- R42, R241, R11: an instruction writes what the access summary lists for it, `pc`, for CALL and RET also `fault`,
which they may raise, for RND also the model's own two fields for the random input (log entry 2), and nothing else.
(R42 is the spec's summary of the instructions' rules; R11 is its decision D13; the faults are its decisions D7 and D8:
log entry 5.) -/
def Obligations.InstructionsWriteWhatTheSummaryLists : Prop :=
  ∀ (i : Instr) (s : State), ∃ t, exec i s = .next t ∧ Frame (.pc :: writeSummary s i) s t

/-- R29, R31: no instruction reads ST or `changed`: whatever they hold, everything else comes out the same; ST keeps
what it holds unless the instruction is LD ST, Vx, which writes the same byte, and `changed` keeps what it holds unless
the instruction is CLS or DRW, which set it the same. (That nothing else writes them is R11, the spec's decision D13,
and that CLS and DRW always set `changed` its decision D25: log entry 5.) -/
def Obligations.SoundTimerAndChangedAreNeverRead : Prop :=
  ∀ (i : Instr) (s : State) (b : Byte) (c : Bool), ∃ t b' c', exec i s = .next t ∧
    exec i { s with st := b, changed := c } = .next { t with st := b', changed := c' } ∧
    ((∃ x, i = .ldStVx x) → b' = t.st) ∧ ((¬ ∃ x, i = .ldStVx x) → b' = b) ∧
    ((i = .cls ∨ ∃ x y n, i = .drw x y n) → c' = t.changed) ∧
    (¬ (i = .cls ∨ ∃ x y n, i = .drw x y n) → c' = c)

/-- R242: between steps the host changes DT, ST, the keys and `changed`, and nothing else: nothing outside the core
redirects `pc`. (What a host move is: log entry 3.) -/
def Obligations.HostMovesNeverRedirectTheProgram : Prop :=
  ∀ (m : Move) (s : State), (∀ b, m ≠ .step b) →
    ∃ t, m.apply s = .next t ∧ Frame [.dt, .st, .keysCur, .keysPrev, .changed] s t

/-- R298, and the JP V0 it leaves out (log entry 9): a state that is not faulted is parked exactly when its word is a
JP to its own address, a JP V0 whose sum is its own address, or an LD Vx, K with no rising edge. -/
def Obligations.ParkedStatesAreTheseThree : Prop :=
  (∀ s : State, s.Parked ↔ s.fault = .none ∧
    (decode s.fetchWord = .instr (.jp s.pc) ∨
     (∃ nnn, decode s.fetchWord = .instr (.jpV0 nnn) ∧ nnn + (s.reg 0).setWidth 12 = s.pc) ∨
     (∃ x, decode s.fetchWord = .instr (.ldVxK x) ∧ ∀ k, ¬ s.RisingEdge k))) ∧
  (∀ s : State, s.Finished → s.Parked)

/-- R38, R245, R246: the invariant is kept by every step. (Its memory clause is the model's own: log entry 10; what it
says of a faulted state is the spec's decision D7.) -/
def Obligations.EveryStepKeepsTheInvariant : Prop :=
  ∀ s t, Invariant s → step s = .next t → Invariant t

/-- R38, R243: every move keeps the invariant: the step with any random byte, and every operation the host may invoke
after launch. (What a move is, reset and load being none: log entry 3; the memory clause: log entry 10; what the
invariant says of a faulted state: the spec's decision D7.) -/
def Obligations.EveryMoveKeepsTheInvariant : Prop :=
  ∀ (m : Move) (s t : State), Invariant s → m.apply s = .next t → Invariant t

/-- R38, R286: every launch state meets the invariant, and so does the state right after reset. (Its memory clause is
the model's own: log entry 10; its fault clauses are R245 and R246, the spec's decision D7, and say nothing where there
is no fault; what a launch is: the spec's decision D16.) -/
def Obligations.LaunchStatesMeetTheInvariant : Prop :=
  Invariant State.reset ∧ (∀ font, Invariant (resetWith font)) ∧ (∀ font rom s, launch font rom = .loaded s → Invariant s)

/-- R38, R245, R246: every state of every run meets the invariant, whatever the FONT, the ROM and the schedule. (Its
memory clause is the model's own: log entry 10; its fault clauses are the spec's decision D7; what a run is: the spec's
decisions D16 and D19, log entry 3.) -/
def Obligations.ReachableStatesMeetTheInvariant : Prop :=
  ∀ s, Reachable s → Invariant s
end

