-- ==== Sys2Proof/Laws/Decode.lean ====
section
/-! SUPPORT. The fields of a word built in one of the formats (spec 30_encoding.md R91, R92), the bytes of a word
(20_memory.md R63), and the decoder on bytes. Everything goes through the word's value as a number. -/

namespace Sys2Proof

/-- Two bit strings end to end, as a number. -/
theorem toNat_concat {m n : Nat} (a : BitVec m) (b : BitVec n) : (a ++ b).toNat = a.toNat * 2 ^ n + b.toNat := by
  rw [BitVec.toNat_append, ← Nat.shiftLeft_add_eq_or_of_lt b.isLt, Nat.shiftLeft_eq]

/-- A slice of a word, as a number. -/
theorem toNat_slice (w : Word) (lo k : Nat) : (w.extractLsb' lo k).toNat = w.toNat / 2 ^ lo % 2 ^ k := by
  rw [BitVec.extractLsb'_toNat, Nat.shiftRight_eq_div_pow]

/-! ## Formats -/

theorem toNat_formAddr (f : BitVec 4) (nnn : Addr) : (formAddr f nnn).toNat = f.toNat * 4096 + nnn.toNat :=
  toNat_concat f nnn

theorem toNat_formRegImm (f : BitVec 4) (x : Reg) (nn : Byte) :
    (formRegImm f x nn).toNat = (f.toNat * 16 + x.val) * 256 + nn.toNat := by
  rw [formRegImm, toNat_concat, toNat_concat]
  rfl

theorem toNat_formRegReg (f : BitVec 4) (x y : Reg) (n : BitVec 4) :
    (formRegReg f x y n).toNat = (f.toNat * 16 + x.val) * 256 + (y.val * 16 + n.toNat) := by
  rw [formRegReg, toNat_concat, toNat_concat, toNat_concat]
  rfl

@[simp] theorem family_formAddr (f : BitVec 4) (nnn : Addr) : Word.family (formAddr f nnn) = f := by
  apply BitVec.eq_of_toNat_eq
  rw [Word.family, toNat_slice, toNat_formAddr]
  omega

@[simp] theorem fieldNNN_formAddr (f : BitVec 4) (nnn : Addr) : Word.fieldNNN (formAddr f nnn) = nnn := by
  apply BitVec.eq_of_toNat_eq
  rw [Word.fieldNNN, toNat_slice, toNat_formAddr]
  omega

@[simp] theorem family_formRegImm (f : BitVec 4) (x : Reg) (nn : Byte) : Word.family (formRegImm f x nn) = f := by
  apply BitVec.eq_of_toNat_eq
  rw [Word.family, toNat_slice, toNat_formRegImm]
  omega

@[simp] theorem fieldX_formRegImm (f : BitVec 4) (x : Reg) (nn : Byte) : Word.fieldX (formRegImm f x nn) = x := by
  apply Fin.ext
  show ((formRegImm f x nn).extractLsb' 8 4).toNat = x.val
  rw [toNat_slice, toNat_formRegImm]
  omega

@[simp] theorem fieldNN_formRegImm (f : BitVec 4) (x : Reg) (nn : Byte) : Word.fieldNN (formRegImm f x nn) = nn := by
  apply BitVec.eq_of_toNat_eq
  rw [Word.fieldNN, toNat_slice, toNat_formRegImm]
  omega

@[simp] theorem family_formRegReg (f : BitVec 4) (x y : Reg) (n : BitVec 4) :
    Word.family (formRegReg f x y n) = f := by
  apply BitVec.eq_of_toNat_eq
  rw [Word.family, toNat_slice, toNat_formRegReg]
  omega

@[simp] theorem fieldX_formRegReg (f : BitVec 4) (x y : Reg) (n : BitVec 4) :
    Word.fieldX (formRegReg f x y n) = x := by
  apply Fin.ext
  show ((formRegReg f x y n).extractLsb' 8 4).toNat = x.val
  rw [toNat_slice, toNat_formRegReg]
  omega

@[simp] theorem fieldY_formRegReg (f : BitVec 4) (x y : Reg) (n : BitVec 4) :
    Word.fieldY (formRegReg f x y n) = y := by
  apply Fin.ext
  show ((formRegReg f x y n).extractLsb' 4 4).toNat = y.val
  rw [toNat_slice, toNat_formRegReg]
  omega

@[simp] theorem fieldN_formRegReg (f : BitVec 4) (x y : Reg) (n : BitVec 4) :
    Word.fieldN (formRegReg f x y n) = n := by
  apply BitVec.eq_of_toNat_eq
  rw [Word.fieldN, toNat_slice, toNat_formRegReg]
  omega

/-- A word is its family and NNN put together. -/
theorem formAddr_fields (w : Word) : formAddr w.family w.fieldNNN = w := by
  apply BitVec.eq_of_toNat_eq
  have := w.isLt
  rw [toNat_formAddr, Word.family, Word.fieldNNN, toNat_slice, toNat_slice]
  omega

/-- A word is its family, X and NN put together. -/
theorem formRegImm_fields (w : Word) : formRegImm w.family w.fieldX w.fieldNN = w := by
  apply BitVec.eq_of_toNat_eq
  have := w.isLt
  have hx : w.fieldX.val = w.toNat / 2 ^ 8 % 2 ^ 4 := toNat_slice w 8 4
  rw [toNat_formRegImm, Word.family, Word.fieldNN, toNat_slice, toNat_slice, hx]
  omega

/-- A word is its family, X, Y and N put together. -/
theorem formRegReg_fields (w : Word) : formRegReg w.family w.fieldX w.fieldY w.fieldN = w := by
  apply BitVec.eq_of_toNat_eq
  have := w.isLt
  have hx : w.fieldX.val = w.toNat / 2 ^ 8 % 2 ^ 4 := toNat_slice w 8 4
  have hy : w.fieldY.val = w.toNat / 2 ^ 4 % 2 ^ 4 := toNat_slice w 4 4
  rw [toNat_formRegReg, Word.family, Word.fieldN, toNat_slice, toNat_slice, hx, hy]
  omega

/-! ## Bytes -/

/-- The word's value: the high byte counts 256 (R63). -/
theorem toNat_ofBytes (hi lo : Byte) : (Word.ofBytes hi lo).toNat = hi.toNat * 256 + lo.toNat :=
  toNat_concat hi lo

/-- The word of its own two bytes. -/
@[simp] theorem ofBytes_highByte_lowByte (w : Word) : Word.ofBytes w.highByte w.lowByte = w := by
  apply BitVec.eq_of_toNat_eq
  have := w.isLt
  rw [toNat_ofBytes, Word.highByte, Word.lowByte, toNat_slice, toNat_slice]
  omega

@[simp] theorem highByte_ofBytes (hi lo : Byte) : Word.highByte (Word.ofBytes hi lo) = hi := by
  apply BitVec.eq_of_toNat_eq
  have := hi.isLt
  rw [Word.highByte, toNat_slice, toNat_ofBytes]
  omega

@[simp] theorem lowByte_ofBytes (hi lo : Byte) : Word.lowByte (Word.ofBytes hi lo) = lo := by
  apply BitVec.eq_of_toNat_eq
  rw [Word.lowByte, toNat_slice, toNat_ofBytes]
  omega

/-- The decoder on a word's own bytes decides as on the word. -/
theorem decodeBytes_word (w : Word) (rest : List Byte) :
    decodeBytes (w.highByte :: w.lowByte :: rest) =
      match decode w with
      | .instr i => .ok (i, rest)
      | .nonMatch why => .error (.nonMatch why) := by
  cases h : decode w <;> simp [decodeBytes, h]

/-- The table's word decodes as the decoder says. -/
theorem decodeTableWord_word (w : Word) : decodeTableWord 16 w.toNat = (decode w).instr? := by
  have h : BitVec.ofNat 16 (w.toNat % 2 ^ 16) = w := by
    rw [Nat.mod_eq_of_lt w.isLt, BitVec.ofNat_toNat, BitVec.setWidth_eq]
  simp only [decodeTableWord, h, decodeBytes_word]
  cases decode w <;> rfl

end Sys2Proof
end

