-- ==== Sys2Proof/Laws/Memory.lean ====
section
/-! SUPPORT. The laws of memory: a read after a write gives the value written there and the old value everywhere
else, and every memory operation keeps the canonical form. -/

namespace Sys2Proof.Machine

/-- An entry put in front reads as its byte, listed or not. -/
theorem Memory.read_entry_same (a : Nat) (w : Byte) (rest : Memory) (h : Memory.wfFrom (a + 1) rest = true) :
    Memory.read (Memory.entry a w rest) a = w := by
  have unlisted : ∀ (m : Memory) (lo : Nat), Memory.wfFrom lo m = true → a < lo → Memory.read m a = initialByte a := by
    intro m
    induction m with
    | nil => intro lo _ _; rfl
    | cons c rest ih =>
      obtain ⟨b, u⟩ := c
      intro lo hwf hlt
      simp only [Memory.wfFrom, Bool.and_eq_true, decide_eq_true_eq] at hwf
      have hne : a ≠ b := by omega
      simp only [Memory.read, if_neg hne]
      exact ih (b + 1) hwf.2 (by omega)
  unfold Memory.entry
  split
  · next hw => rw [unlisted rest (a + 1) h (by omega), hw]
  · simp [Memory.read]

/-- An entry put in front changes no other address. -/
theorem Memory.read_entry_other (a a' : Nat) (w : Byte) (rest : Memory) (h : a' ≠ a) :
    Memory.read (Memory.entry a w rest) a' = Memory.read rest a' := by
  unfold Memory.entry
  split
  · rfl
  · simp [Memory.read, h]

/-- The canonical form from a later address is one from an earlier address. -/
theorem Memory.wfFrom_mono {lo lo' : Nat} (hle : lo' ≤ lo) (m : Memory) (h : Memory.wfFrom lo m = true) :
    Memory.wfFrom lo' m = true := by
  cases m with
  | nil => rfl
  | cons c rest =>
    obtain ⟨b, u⟩ := c
    simp only [Memory.wfFrom, Bool.and_eq_true, decide_eq_true_eq] at h ⊢
    exact ⟨⟨⟨by omega, h.1.1.2⟩, h.1.2⟩, h.2⟩

/-- An entry in front of a canonical rest is canonical. -/
theorem Memory.wfFrom_entry {lo a : Nat} (w : Byte) (rest : Memory) (hlo : lo ≤ a) (ha : a < Config.memSize)
    (h : Memory.wfFrom (a + 1) rest = true) : Memory.wfFrom lo (Memory.entry a w rest) = true := by
  unfold Memory.entry
  split
  · exact Memory.wfFrom_mono (by omega) rest h
  · next hw =>
    simp only [Memory.wfFrom, Bool.and_eq_true, decide_eq_true_eq]
    exact ⟨⟨⟨hlo, ha⟩, hw⟩, h⟩

/-- A write keeps the canonical form, from any address up to the one written. -/
theorem Memory.wfFrom_write {a : Nat} (w : Byte) (ha : a < Config.memSize) (m : Memory) :
    ∀ lo, lo ≤ a → Memory.wfFrom lo m = true → Memory.wfFrom lo (Memory.write m a w) = true := by
  induction m with
  | nil =>
    intro lo hlo _
    exact Memory.wfFrom_entry w [] hlo ha rfl
  | cons c rest ih =>
    obtain ⟨b, u⟩ := c
    intro lo hlo hwf
    simp only [Memory.wfFrom, Bool.and_eq_true, decide_eq_true_eq] at hwf
    simp only [Memory.write]
    split
    · refine Memory.wfFrom_entry w _ hlo ha ?_
      simp only [Memory.wfFrom, Bool.and_eq_true, decide_eq_true_eq]
      exact ⟨⟨⟨by omega, hwf.1.1.2⟩, hwf.1.2⟩, hwf.2⟩
    · split
      · next hab => subst hab; exact Memory.wfFrom_entry w rest hlo ha hwf.2
      · simp only [Memory.wfFrom, Bool.and_eq_true, decide_eq_true_eq]
        exact ⟨hwf.1, ih (b + 1) (by omega) hwf.2⟩

/-- A write keeps the canonical form. -/
theorem Memory.wf_write {m : Memory} {a : Nat} (w : Byte) (ha : a < Config.memSize) (h : Memory.wf m = true) :
    Memory.wf (Memory.write m a w) = true :=
  Memory.wfFrom_write w ha m 0 (by omega) h

/-- A read after a write to the same address gives the byte written. -/
theorem Memory.read_write_same (a : Nat) (w : Byte) (m : Memory) :
    ∀ lo, Memory.wfFrom lo m = true → Memory.read (Memory.write m a w) a = w := by
  induction m with
  | nil => intro lo _; exact Memory.read_entry_same a w [] rfl
  | cons c rest ih =>
    obtain ⟨b, u⟩ := c
    intro lo hwf
    simp only [Memory.wfFrom, Bool.and_eq_true, decide_eq_true_eq] at hwf
    simp only [Memory.write]
    split
    · refine Memory.read_entry_same a w _ ?_
      simp only [Memory.wfFrom, Bool.and_eq_true, decide_eq_true_eq]
      exact ⟨⟨⟨by omega, hwf.1.1.2⟩, hwf.1.2⟩, hwf.2⟩
    · split
      · next hab => subst hab; exact Memory.read_entry_same a w rest hwf.2
      · next hab => simp only [Memory.read, if_neg hab]; exact ih (b + 1) hwf.2

/-- A write leaves every other address alone, in every memory. -/
theorem Memory.read_write_other {a a' : Nat} (h : a' ≠ a) (w : Byte) (m : Memory) :
    Memory.read (Memory.write m a w) a' = Memory.read m a' := by
  induction m with
  | nil => exact Memory.read_entry_other a a' w [] h
  | cons c rest ih =>
    obtain ⟨b, u⟩ := c
    simp only [Memory.write]
    split
    · exact Memory.read_entry_other a a' w _ h
    · split
      · next hab => subst hab; rw [Memory.read_entry_other a a' w rest h]; simp [Memory.read, h]
      · simp only [Memory.read, ih]

/-- Writing bytes keeps the canonical form. -/
theorem Memory.wf_writeBytes (bs : List Byte) :
    ∀ (m : Memory) (a : Addr), Memory.wf m = true → Memory.wf (Memory.writeBytes m a bs) = true := by
  induction bs with
  | nil => intro m a h; exact h
  | cons b bs ih => intro m a h; exact ih _ _ (Memory.wf_write b a.isLt h)

/-- Writing bytes leaves an address outside them alone, in every memory. -/
theorem Memory.read_writeBytes_other (a' : Addr) (bs : List Byte) :
    ∀ (m : Memory) (a : Addr), (∀ k, k < bs.length → a' ≠ a + BitVec.ofNat 12 k) →
      Memory.read (Memory.writeBytes m a bs) a'.toNat = Memory.read m a'.toNat := by
  induction bs with
  | nil => intro m a _; rfl
  | cons b bs ih =>
    intro m a h
    have h0 : a' ≠ a := by simpa using h 0 (by simp)
    simp only [Memory.writeBytes]
    rw [ih]
    · exact Memory.read_write_other (fun hn => h0 (BitVec.eq_of_toNat_eq hn)) b m
    · intro k hk
      have := h (k + 1) (by simpa using hk)
      intro heq
      apply this
      rw [heq, BitVec.add_assoc]
      congr 1
      apply BitVec.eq_of_toNat_eq
      simp [BitVec.toNat_add, BitVec.toNat_ofNat, Nat.add_comm]

/-- After writing at most 4096 bytes, the k-th address reads as the k-th byte. -/
theorem Memory.read_writeBytes (bs : List Byte) :
    ∀ (m : Memory) (a : Addr) (k : Nat) (hk : k < bs.length), Memory.wf m = true → bs.length ≤ Config.memSize →
      Memory.read (Memory.writeBytes m a bs) (a + BitVec.ofNat 12 k).toNat = bs[k] := by
  induction bs with
  | nil => intro m a k hk; simp at hk
  | cons b bs ih =>
    intro m a k hk hm hlen
    simp only [Memory.writeBytes]
    simp only [List.length_cons, Config.memSize] at hk hlen
    cases k with
    | zero =>
      rw [Memory.read_writeBytes_other]
      · simpa using Memory.read_write_same a.toNat b m 0 hm
      · intro j hj heq
        have := congrArg BitVec.toNat heq
        have one : (1 : Addr).toNat = 1 := rfl
        simp only [BitVec.toNat_add, BitVec.toNat_ofNat, one] at this
        omega
    | succ k =>
      have haddr : a + BitVec.ofNat 12 (k + 1) = a + 1 + BitVec.ofNat 12 k := by
        have one : (1 : Addr).toNat = 1 := rfl
        apply BitVec.eq_of_toNat_eq
        simp only [BitVec.toNat_add, BitVec.toNat_ofNat, one]
        omega
      rw [haddr]
      simpa using ih (Memory.write m a.toNat b) (a + 1) k (by omega) (Memory.wf_write b a.isLt hm)
        (by simp only [Config.memSize]; omega)

/-- Memory at reset is in the canonical form. -/
theorem Memory.wf_reset : Memory.wf State.reset.mem = true := rfl

end Sys2Proof.Machine
end

