-- ==== Sys2Proof/Laws/State.lean ====
section
/-! SUPPORT. One lemma per field of `State` and update: what each named update of Machine/ makes of each field, and of
the read of a register and of a byte. No proof needs to unfold an update. -/

namespace Sys2Proof.Machine

variable (s : State)

/-! `setReg` -/

@[simp] theorem State.setReg_mem (x : Reg) (b : Byte) : (s.setReg x b).mem = s.mem := rfl
@[simp] theorem State.setReg_v (x : Reg) (b : Byte) : (s.setReg x b).v = s.v.set x b := rfl
@[simp] theorem State.setReg_i (x : Reg) (b : Byte) : (s.setReg x b).i = s.i := rfl
@[simp] theorem State.setReg_pc (x : Reg) (b : Byte) : (s.setReg x b).pc = s.pc := rfl
@[simp] theorem State.setReg_stack (x : Reg) (b : Byte) : (s.setReg x b).stack = s.stack := rfl
@[simp] theorem State.setReg_sp (x : Reg) (b : Byte) : (s.setReg x b).sp = s.sp := rfl
@[simp] theorem State.setReg_dt (x : Reg) (b : Byte) : (s.setReg x b).dt = s.dt := rfl
@[simp] theorem State.setReg_st (x : Reg) (b : Byte) : (s.setReg x b).st = s.st := rfl
@[simp] theorem State.setReg_disp (x : Reg) (b : Byte) : (s.setReg x b).disp = s.disp := rfl
@[simp] theorem State.setReg_changed (x : Reg) (b : Byte) : (s.setReg x b).changed = s.changed := rfl
@[simp] theorem State.setReg_keysCur (x : Reg) (b : Byte) : (s.setReg x b).keysCur = s.keysCur := rfl
@[simp] theorem State.setReg_keysPrev (x : Reg) (b : Byte) : (s.setReg x b).keysPrev = s.keysPrev := rfl
@[simp] theorem State.setReg_fault (x : Reg) (b : Byte) : (s.setReg x b).fault = s.fault := rfl
@[simp] theorem State.setReg_rnd (x : Reg) (b : Byte) : (s.setReg x b).rnd = s.rnd := rfl
@[simp] theorem State.setReg_draws (x : Reg) (b : Byte) : (s.setReg x b).draws = s.draws := rfl
@[simp] theorem State.setReg_byteAt (x : Reg) (b : Byte) (at' : Addr) : (s.setReg x b).byteAt at' = s.byteAt at' := rfl

/-! `setI` -/

@[simp] theorem State.setI_mem (a : Addr) : (s.setI a).mem = s.mem := rfl
@[simp] theorem State.setI_v (a : Addr) : (s.setI a).v = s.v := rfl
@[simp] theorem State.setI_i (a : Addr) : (s.setI a).i = a := rfl
@[simp] theorem State.setI_pc (a : Addr) : (s.setI a).pc = s.pc := rfl
@[simp] theorem State.setI_stack (a : Addr) : (s.setI a).stack = s.stack := rfl
@[simp] theorem State.setI_sp (a : Addr) : (s.setI a).sp = s.sp := rfl
@[simp] theorem State.setI_dt (a : Addr) : (s.setI a).dt = s.dt := rfl
@[simp] theorem State.setI_st (a : Addr) : (s.setI a).st = s.st := rfl
@[simp] theorem State.setI_disp (a : Addr) : (s.setI a).disp = s.disp := rfl
@[simp] theorem State.setI_changed (a : Addr) : (s.setI a).changed = s.changed := rfl
@[simp] theorem State.setI_keysCur (a : Addr) : (s.setI a).keysCur = s.keysCur := rfl
@[simp] theorem State.setI_keysPrev (a : Addr) : (s.setI a).keysPrev = s.keysPrev := rfl
@[simp] theorem State.setI_fault (a : Addr) : (s.setI a).fault = s.fault := rfl
@[simp] theorem State.setI_rnd (a : Addr) : (s.setI a).rnd = s.rnd := rfl
@[simp] theorem State.setI_draws (a : Addr) : (s.setI a).draws = s.draws := rfl
@[simp] theorem State.setI_byteAt (a : Addr) (at' : Addr) : (s.setI a).byteAt at' = s.byteAt at' := rfl
@[simp] theorem State.setI_reg (a : Addr) (y : Reg) : (s.setI a).reg y = s.reg y := rfl

/-! `setPc` -/

@[simp] theorem State.setPc_mem (a : Addr) : (s.setPc a).mem = s.mem := rfl
@[simp] theorem State.setPc_v (a : Addr) : (s.setPc a).v = s.v := rfl
@[simp] theorem State.setPc_i (a : Addr) : (s.setPc a).i = s.i := rfl
@[simp] theorem State.setPc_pc (a : Addr) : (s.setPc a).pc = a := rfl
@[simp] theorem State.setPc_stack (a : Addr) : (s.setPc a).stack = s.stack := rfl
@[simp] theorem State.setPc_sp (a : Addr) : (s.setPc a).sp = s.sp := rfl
@[simp] theorem State.setPc_dt (a : Addr) : (s.setPc a).dt = s.dt := rfl
@[simp] theorem State.setPc_st (a : Addr) : (s.setPc a).st = s.st := rfl
@[simp] theorem State.setPc_disp (a : Addr) : (s.setPc a).disp = s.disp := rfl
@[simp] theorem State.setPc_changed (a : Addr) : (s.setPc a).changed = s.changed := rfl
@[simp] theorem State.setPc_keysCur (a : Addr) : (s.setPc a).keysCur = s.keysCur := rfl
@[simp] theorem State.setPc_keysPrev (a : Addr) : (s.setPc a).keysPrev = s.keysPrev := rfl
@[simp] theorem State.setPc_fault (a : Addr) : (s.setPc a).fault = s.fault := rfl
@[simp] theorem State.setPc_rnd (a : Addr) : (s.setPc a).rnd = s.rnd := rfl
@[simp] theorem State.setPc_draws (a : Addr) : (s.setPc a).draws = s.draws := rfl
@[simp] theorem State.setPc_byteAt (a : Addr) (at' : Addr) : (s.setPc a).byteAt at' = s.byteAt at' := rfl
@[simp] theorem State.setPc_reg (a : Addr) (y : Reg) : (s.setPc a).reg y = s.reg y := rfl

/-! `setDt` -/

@[simp] theorem State.setDt_mem (b : Byte) : (s.setDt b).mem = s.mem := rfl
@[simp] theorem State.setDt_v (b : Byte) : (s.setDt b).v = s.v := rfl
@[simp] theorem State.setDt_i (b : Byte) : (s.setDt b).i = s.i := rfl
@[simp] theorem State.setDt_pc (b : Byte) : (s.setDt b).pc = s.pc := rfl
@[simp] theorem State.setDt_stack (b : Byte) : (s.setDt b).stack = s.stack := rfl
@[simp] theorem State.setDt_sp (b : Byte) : (s.setDt b).sp = s.sp := rfl
@[simp] theorem State.setDt_dt (b : Byte) : (s.setDt b).dt = b := rfl
@[simp] theorem State.setDt_st (b : Byte) : (s.setDt b).st = s.st := rfl
@[simp] theorem State.setDt_disp (b : Byte) : (s.setDt b).disp = s.disp := rfl
@[simp] theorem State.setDt_changed (b : Byte) : (s.setDt b).changed = s.changed := rfl
@[simp] theorem State.setDt_keysCur (b : Byte) : (s.setDt b).keysCur = s.keysCur := rfl
@[simp] theorem State.setDt_keysPrev (b : Byte) : (s.setDt b).keysPrev = s.keysPrev := rfl
@[simp] theorem State.setDt_fault (b : Byte) : (s.setDt b).fault = s.fault := rfl
@[simp] theorem State.setDt_rnd (b : Byte) : (s.setDt b).rnd = s.rnd := rfl
@[simp] theorem State.setDt_draws (b : Byte) : (s.setDt b).draws = s.draws := rfl
@[simp] theorem State.setDt_byteAt (b : Byte) (at' : Addr) : (s.setDt b).byteAt at' = s.byteAt at' := rfl
@[simp] theorem State.setDt_reg (b : Byte) (y : Reg) : (s.setDt b).reg y = s.reg y := rfl

/-! `setSt` -/

@[simp] theorem State.setSt_mem (b : Byte) : (s.setSt b).mem = s.mem := rfl
@[simp] theorem State.setSt_v (b : Byte) : (s.setSt b).v = s.v := rfl
@[simp] theorem State.setSt_i (b : Byte) : (s.setSt b).i = s.i := rfl
@[simp] theorem State.setSt_pc (b : Byte) : (s.setSt b).pc = s.pc := rfl
@[simp] theorem State.setSt_stack (b : Byte) : (s.setSt b).stack = s.stack := rfl
@[simp] theorem State.setSt_sp (b : Byte) : (s.setSt b).sp = s.sp := rfl
@[simp] theorem State.setSt_dt (b : Byte) : (s.setSt b).dt = s.dt := rfl
@[simp] theorem State.setSt_st (b : Byte) : (s.setSt b).st = b := rfl
@[simp] theorem State.setSt_disp (b : Byte) : (s.setSt b).disp = s.disp := rfl
@[simp] theorem State.setSt_changed (b : Byte) : (s.setSt b).changed = s.changed := rfl
@[simp] theorem State.setSt_keysCur (b : Byte) : (s.setSt b).keysCur = s.keysCur := rfl
@[simp] theorem State.setSt_keysPrev (b : Byte) : (s.setSt b).keysPrev = s.keysPrev := rfl
@[simp] theorem State.setSt_fault (b : Byte) : (s.setSt b).fault = s.fault := rfl
@[simp] theorem State.setSt_rnd (b : Byte) : (s.setSt b).rnd = s.rnd := rfl
@[simp] theorem State.setSt_draws (b : Byte) : (s.setSt b).draws = s.draws := rfl
@[simp] theorem State.setSt_byteAt (b : Byte) (at' : Addr) : (s.setSt b).byteAt at' = s.byteAt at' := rfl
@[simp] theorem State.setSt_reg (b : Byte) (y : Reg) : (s.setSt b).reg y = s.reg y := rfl

/-! `advance` -/

@[simp] theorem State.advance_mem : (s.advance).mem = s.mem := rfl
@[simp] theorem State.advance_v : (s.advance).v = s.v := rfl
@[simp] theorem State.advance_i : (s.advance).i = s.i := rfl
@[simp] theorem State.advance_pc : (s.advance).pc = s.pc + Config.instrBytes := rfl
@[simp] theorem State.advance_stack : (s.advance).stack = s.stack := rfl
@[simp] theorem State.advance_sp : (s.advance).sp = s.sp := rfl
@[simp] theorem State.advance_dt : (s.advance).dt = s.dt := rfl
@[simp] theorem State.advance_st : (s.advance).st = s.st := rfl
@[simp] theorem State.advance_disp : (s.advance).disp = s.disp := rfl
@[simp] theorem State.advance_changed : (s.advance).changed = s.changed := rfl
@[simp] theorem State.advance_keysCur : (s.advance).keysCur = s.keysCur := rfl
@[simp] theorem State.advance_keysPrev : (s.advance).keysPrev = s.keysPrev := rfl
@[simp] theorem State.advance_fault : (s.advance).fault = s.fault := rfl
@[simp] theorem State.advance_rnd : (s.advance).rnd = s.rnd := rfl
@[simp] theorem State.advance_draws : (s.advance).draws = s.draws := rfl
@[simp] theorem State.advance_byteAt (at' : Addr) : (s.advance).byteAt at' = s.byteAt at' := rfl
@[simp] theorem State.advance_reg (y : Reg) : (s.advance).reg y = s.reg y := rfl

/-! `rewind` -/

@[simp] theorem State.rewind_mem : (s.rewind).mem = s.mem := rfl
@[simp] theorem State.rewind_v : (s.rewind).v = s.v := rfl
@[simp] theorem State.rewind_i : (s.rewind).i = s.i := rfl
@[simp] theorem State.rewind_pc : (s.rewind).pc = s.pc - Config.instrBytes := rfl
@[simp] theorem State.rewind_stack : (s.rewind).stack = s.stack := rfl
@[simp] theorem State.rewind_sp : (s.rewind).sp = s.sp := rfl
@[simp] theorem State.rewind_dt : (s.rewind).dt = s.dt := rfl
@[simp] theorem State.rewind_st : (s.rewind).st = s.st := rfl
@[simp] theorem State.rewind_disp : (s.rewind).disp = s.disp := rfl
@[simp] theorem State.rewind_changed : (s.rewind).changed = s.changed := rfl
@[simp] theorem State.rewind_keysCur : (s.rewind).keysCur = s.keysCur := rfl
@[simp] theorem State.rewind_keysPrev : (s.rewind).keysPrev = s.keysPrev := rfl
@[simp] theorem State.rewind_fault : (s.rewind).fault = s.fault := rfl
@[simp] theorem State.rewind_rnd : (s.rewind).rnd = s.rnd := rfl
@[simp] theorem State.rewind_draws : (s.rewind).draws = s.draws := rfl
@[simp] theorem State.rewind_byteAt (at' : Addr) : (s.rewind).byteAt at' = s.byteAt at' := rfl
@[simp] theorem State.rewind_reg (y : Reg) : (s.rewind).reg y = s.reg y := rfl

/-! `raise` -/

@[simp] theorem State.raise_mem (f : FaultCode) : (s.raise f).mem = s.mem := rfl
@[simp] theorem State.raise_v (f : FaultCode) : (s.raise f).v = s.v := rfl
@[simp] theorem State.raise_i (f : FaultCode) : (s.raise f).i = s.i := rfl
@[simp] theorem State.raise_pc (f : FaultCode) : (s.raise f).pc = s.pc - Config.instrBytes := rfl
@[simp] theorem State.raise_stack (f : FaultCode) : (s.raise f).stack = s.stack := rfl
@[simp] theorem State.raise_sp (f : FaultCode) : (s.raise f).sp = s.sp := rfl
@[simp] theorem State.raise_dt (f : FaultCode) : (s.raise f).dt = s.dt := rfl
@[simp] theorem State.raise_st (f : FaultCode) : (s.raise f).st = s.st := rfl
@[simp] theorem State.raise_disp (f : FaultCode) : (s.raise f).disp = s.disp := rfl
@[simp] theorem State.raise_changed (f : FaultCode) : (s.raise f).changed = s.changed := rfl
@[simp] theorem State.raise_keysCur (f : FaultCode) : (s.raise f).keysCur = s.keysCur := rfl
@[simp] theorem State.raise_keysPrev (f : FaultCode) : (s.raise f).keysPrev = s.keysPrev := rfl
@[simp] theorem State.raise_fault (f : FaultCode) : (s.raise f).fault = f := rfl
@[simp] theorem State.raise_rnd (f : FaultCode) : (s.raise f).rnd = s.rnd := rfl
@[simp] theorem State.raise_draws (f : FaultCode) : (s.raise f).draws = s.draws := rfl
@[simp] theorem State.raise_byteAt (f : FaultCode) (at' : Addr) : (s.raise f).byteAt at' = s.byteAt at' := rfl
@[simp] theorem State.raise_reg (f : FaultCode) (y : Reg) : (s.raise f).reg y = s.reg y := rfl

/-! `push` -/

@[simp] theorem State.push_mem (a : Addr) : (s.push a).mem = s.mem := rfl
@[simp] theorem State.push_v (a : Addr) : (s.push a).v = s.v := rfl
@[simp] theorem State.push_i (a : Addr) : (s.push a).i = s.i := rfl
@[simp] theorem State.push_pc (a : Addr) : (s.push a).pc = s.pc := rfl
@[simp] theorem State.push_stack (a : Addr) : (s.push a).stack = s.stack.set (s.sp + 1).toNat a := rfl
@[simp] theorem State.push_sp (a : Addr) : (s.push a).sp = s.sp + 1 := rfl
@[simp] theorem State.push_dt (a : Addr) : (s.push a).dt = s.dt := rfl
@[simp] theorem State.push_st (a : Addr) : (s.push a).st = s.st := rfl
@[simp] theorem State.push_disp (a : Addr) : (s.push a).disp = s.disp := rfl
@[simp] theorem State.push_changed (a : Addr) : (s.push a).changed = s.changed := rfl
@[simp] theorem State.push_keysCur (a : Addr) : (s.push a).keysCur = s.keysCur := rfl
@[simp] theorem State.push_keysPrev (a : Addr) : (s.push a).keysPrev = s.keysPrev := rfl
@[simp] theorem State.push_fault (a : Addr) : (s.push a).fault = s.fault := rfl
@[simp] theorem State.push_rnd (a : Addr) : (s.push a).rnd = s.rnd := rfl
@[simp] theorem State.push_draws (a : Addr) : (s.push a).draws = s.draws := rfl
@[simp] theorem State.push_byteAt (a : Addr) (at' : Addr) : (s.push a).byteAt at' = s.byteAt at' := rfl
@[simp] theorem State.push_reg (a : Addr) (y : Reg) : (s.push a).reg y = s.reg y := rfl

/-! `pop` -/

@[simp] theorem State.pop_mem : (s.pop).mem = s.mem := rfl
@[simp] theorem State.pop_v : (s.pop).v = s.v := rfl
@[simp] theorem State.pop_i : (s.pop).i = s.i := rfl
@[simp] theorem State.pop_pc : (s.pop).pc = s.top := rfl
@[simp] theorem State.pop_stack : (s.pop).stack = s.stack := rfl
@[simp] theorem State.pop_sp : (s.pop).sp = s.sp - 1 := rfl
@[simp] theorem State.pop_dt : (s.pop).dt = s.dt := rfl
@[simp] theorem State.pop_st : (s.pop).st = s.st := rfl
@[simp] theorem State.pop_disp : (s.pop).disp = s.disp := rfl
@[simp] theorem State.pop_changed : (s.pop).changed = s.changed := rfl
@[simp] theorem State.pop_keysCur : (s.pop).keysCur = s.keysCur := rfl
@[simp] theorem State.pop_keysPrev : (s.pop).keysPrev = s.keysPrev := rfl
@[simp] theorem State.pop_fault : (s.pop).fault = s.fault := rfl
@[simp] theorem State.pop_rnd : (s.pop).rnd = s.rnd := rfl
@[simp] theorem State.pop_draws : (s.pop).draws = s.draws := rfl
@[simp] theorem State.pop_byteAt (at' : Addr) : (s.pop).byteAt at' = s.byteAt at' := rfl
@[simp] theorem State.pop_reg (y : Reg) : (s.pop).reg y = s.reg y := rfl

/-! `clearDisplay` -/

@[simp] theorem State.clearDisplay_mem : (s.clearDisplay).mem = s.mem := rfl
@[simp] theorem State.clearDisplay_v : (s.clearDisplay).v = s.v := rfl
@[simp] theorem State.clearDisplay_i : (s.clearDisplay).i = s.i := rfl
@[simp] theorem State.clearDisplay_pc : (s.clearDisplay).pc = s.pc := rfl
@[simp] theorem State.clearDisplay_stack : (s.clearDisplay).stack = s.stack := rfl
@[simp] theorem State.clearDisplay_sp : (s.clearDisplay).sp = s.sp := rfl
@[simp] theorem State.clearDisplay_dt : (s.clearDisplay).dt = s.dt := rfl
@[simp] theorem State.clearDisplay_st : (s.clearDisplay).st = s.st := rfl
@[simp] theorem State.clearDisplay_disp : (s.clearDisplay).disp = Vector.replicate 32 0 := rfl
@[simp] theorem State.clearDisplay_changed : (s.clearDisplay).changed = true := rfl
@[simp] theorem State.clearDisplay_keysCur : (s.clearDisplay).keysCur = s.keysCur := rfl
@[simp] theorem State.clearDisplay_keysPrev : (s.clearDisplay).keysPrev = s.keysPrev := rfl
@[simp] theorem State.clearDisplay_fault : (s.clearDisplay).fault = s.fault := rfl
@[simp] theorem State.clearDisplay_rnd : (s.clearDisplay).rnd = s.rnd := rfl
@[simp] theorem State.clearDisplay_draws : (s.clearDisplay).draws = s.draws := rfl
@[simp] theorem State.clearDisplay_byteAt (at' : Addr) : (s.clearDisplay).byteAt at' = s.byteAt at' := rfl
@[simp] theorem State.clearDisplay_reg (y : Reg) : (s.clearDisplay).reg y = s.reg y := rfl

/-! `setDisplay` -/

@[simp] theorem State.setDisplay_mem (d : Vector Row 32) : (s.setDisplay d).mem = s.mem := rfl
@[simp] theorem State.setDisplay_v (d : Vector Row 32) : (s.setDisplay d).v = s.v := rfl
@[simp] theorem State.setDisplay_i (d : Vector Row 32) : (s.setDisplay d).i = s.i := rfl
@[simp] theorem State.setDisplay_pc (d : Vector Row 32) : (s.setDisplay d).pc = s.pc := rfl
@[simp] theorem State.setDisplay_stack (d : Vector Row 32) : (s.setDisplay d).stack = s.stack := rfl
@[simp] theorem State.setDisplay_sp (d : Vector Row 32) : (s.setDisplay d).sp = s.sp := rfl
@[simp] theorem State.setDisplay_dt (d : Vector Row 32) : (s.setDisplay d).dt = s.dt := rfl
@[simp] theorem State.setDisplay_st (d : Vector Row 32) : (s.setDisplay d).st = s.st := rfl
@[simp] theorem State.setDisplay_disp (d : Vector Row 32) : (s.setDisplay d).disp = d := rfl
@[simp] theorem State.setDisplay_changed (d : Vector Row 32) : (s.setDisplay d).changed = true := rfl
@[simp] theorem State.setDisplay_keysCur (d : Vector Row 32) : (s.setDisplay d).keysCur = s.keysCur := rfl
@[simp] theorem State.setDisplay_keysPrev (d : Vector Row 32) : (s.setDisplay d).keysPrev = s.keysPrev := rfl
@[simp] theorem State.setDisplay_fault (d : Vector Row 32) : (s.setDisplay d).fault = s.fault := rfl
@[simp] theorem State.setDisplay_rnd (d : Vector Row 32) : (s.setDisplay d).rnd = s.rnd := rfl
@[simp] theorem State.setDisplay_draws (d : Vector Row 32) : (s.setDisplay d).draws = s.draws := rfl
@[simp] theorem State.setDisplay_byteAt (d : Vector Row 32) (at' : Addr) : (s.setDisplay d).byteAt at' = s.byteAt at' := rfl
@[simp] theorem State.setDisplay_reg (d : Vector Row 32) (y : Reg) : (s.setDisplay d).reg y = s.reg y := rfl

/-! `drawn` -/

@[simp] theorem State.drawn_mem : (s.drawn).mem = s.mem := rfl
@[simp] theorem State.drawn_v : (s.drawn).v = s.v := rfl
@[simp] theorem State.drawn_i : (s.drawn).i = s.i := rfl
@[simp] theorem State.drawn_pc : (s.drawn).pc = s.pc := rfl
@[simp] theorem State.drawn_stack : (s.drawn).stack = s.stack := rfl
@[simp] theorem State.drawn_sp : (s.drawn).sp = s.sp := rfl
@[simp] theorem State.drawn_dt : (s.drawn).dt = s.dt := rfl
@[simp] theorem State.drawn_st : (s.drawn).st = s.st := rfl
@[simp] theorem State.drawn_disp : (s.drawn).disp = s.disp := rfl
@[simp] theorem State.drawn_changed : (s.drawn).changed = s.changed := rfl
@[simp] theorem State.drawn_keysCur : (s.drawn).keysCur = s.keysCur := rfl
@[simp] theorem State.drawn_keysPrev : (s.drawn).keysPrev = s.keysPrev := rfl
@[simp] theorem State.drawn_fault : (s.drawn).fault = s.fault := rfl
@[simp] theorem State.drawn_rnd : (s.drawn).rnd = none := rfl
@[simp] theorem State.drawn_draws : (s.drawn).draws = s.draws + 1 := rfl
@[simp] theorem State.drawn_byteAt (at' : Addr) : (s.drawn).byteAt at' = s.byteAt at' := rfl
@[simp] theorem State.drawn_reg (y : Reg) : (s.drawn).reg y = s.reg y := rfl

/-! `storeBytes` -/

@[simp] theorem State.storeBytes_mem (a : Addr) (bs : List Byte) : (s.storeBytes a bs).mem = Memory.writeBytes s.mem a bs := rfl
@[simp] theorem State.storeBytes_v (a : Addr) (bs : List Byte) : (s.storeBytes a bs).v = s.v := rfl
@[simp] theorem State.storeBytes_i (a : Addr) (bs : List Byte) : (s.storeBytes a bs).i = s.i := rfl
@[simp] theorem State.storeBytes_pc (a : Addr) (bs : List Byte) : (s.storeBytes a bs).pc = s.pc := rfl
@[simp] theorem State.storeBytes_stack (a : Addr) (bs : List Byte) : (s.storeBytes a bs).stack = s.stack := rfl
@[simp] theorem State.storeBytes_sp (a : Addr) (bs : List Byte) : (s.storeBytes a bs).sp = s.sp := rfl
@[simp] theorem State.storeBytes_dt (a : Addr) (bs : List Byte) : (s.storeBytes a bs).dt = s.dt := rfl
@[simp] theorem State.storeBytes_st (a : Addr) (bs : List Byte) : (s.storeBytes a bs).st = s.st := rfl
@[simp] theorem State.storeBytes_disp (a : Addr) (bs : List Byte) : (s.storeBytes a bs).disp = s.disp := rfl
@[simp] theorem State.storeBytes_changed (a : Addr) (bs : List Byte) : (s.storeBytes a bs).changed = s.changed := rfl
@[simp] theorem State.storeBytes_keysCur (a : Addr) (bs : List Byte) : (s.storeBytes a bs).keysCur = s.keysCur := rfl
@[simp] theorem State.storeBytes_keysPrev (a : Addr) (bs : List Byte) : (s.storeBytes a bs).keysPrev = s.keysPrev := rfl
@[simp] theorem State.storeBytes_fault (a : Addr) (bs : List Byte) : (s.storeBytes a bs).fault = s.fault := rfl
@[simp] theorem State.storeBytes_rnd (a : Addr) (bs : List Byte) : (s.storeBytes a bs).rnd = s.rnd := rfl
@[simp] theorem State.storeBytes_draws (a : Addr) (bs : List Byte) : (s.storeBytes a bs).draws = s.draws := rfl
@[simp] theorem State.storeBytes_reg (a : Addr) (bs : List Byte) (y : Reg) : (s.storeBytes a bs).reg y = s.reg y := rfl

/-! `loadRegs` -/

@[simp] theorem State.loadRegs_mem (x : Reg) : (s.loadRegs x).mem = s.mem := rfl
@[simp] theorem State.loadRegs_v (x : Reg) : (s.loadRegs x).v = loadFrom s.v 0 (s.bytesAt s.i (x.val + 1)) := rfl
@[simp] theorem State.loadRegs_i (x : Reg) : (s.loadRegs x).i = s.i := rfl
@[simp] theorem State.loadRegs_pc (x : Reg) : (s.loadRegs x).pc = s.pc := rfl
@[simp] theorem State.loadRegs_stack (x : Reg) : (s.loadRegs x).stack = s.stack := rfl
@[simp] theorem State.loadRegs_sp (x : Reg) : (s.loadRegs x).sp = s.sp := rfl
@[simp] theorem State.loadRegs_dt (x : Reg) : (s.loadRegs x).dt = s.dt := rfl
@[simp] theorem State.loadRegs_st (x : Reg) : (s.loadRegs x).st = s.st := rfl
@[simp] theorem State.loadRegs_disp (x : Reg) : (s.loadRegs x).disp = s.disp := rfl
@[simp] theorem State.loadRegs_changed (x : Reg) : (s.loadRegs x).changed = s.changed := rfl
@[simp] theorem State.loadRegs_keysCur (x : Reg) : (s.loadRegs x).keysCur = s.keysCur := rfl
@[simp] theorem State.loadRegs_keysPrev (x : Reg) : (s.loadRegs x).keysPrev = s.keysPrev := rfl
@[simp] theorem State.loadRegs_fault (x : Reg) : (s.loadRegs x).fault = s.fault := rfl
@[simp] theorem State.loadRegs_rnd (x : Reg) : (s.loadRegs x).rnd = s.rnd := rfl
@[simp] theorem State.loadRegs_draws (x : Reg) : (s.loadRegs x).draws = s.draws := rfl
@[simp] theorem State.loadRegs_byteAt (x : Reg) (at' : Addr) : (s.loadRegs x).byteAt at' = s.byteAt at' := rfl

/-! `setFlagThenReg` -/

@[simp] theorem State.setFlagThenReg_mem (x : Reg) (f : Bool) (r : Byte) : (s.setFlagThenReg x f r).mem = s.mem := rfl
@[simp] theorem State.setFlagThenReg_v (x : Reg) (f : Bool) (r : Byte) : (s.setFlagThenReg x f r).v = (s.v.set regF (flagByte f)).set x r := rfl
@[simp] theorem State.setFlagThenReg_i (x : Reg) (f : Bool) (r : Byte) : (s.setFlagThenReg x f r).i = s.i := rfl
@[simp] theorem State.setFlagThenReg_pc (x : Reg) (f : Bool) (r : Byte) : (s.setFlagThenReg x f r).pc = s.pc := rfl
@[simp] theorem State.setFlagThenReg_stack (x : Reg) (f : Bool) (r : Byte) : (s.setFlagThenReg x f r).stack = s.stack := rfl
@[simp] theorem State.setFlagThenReg_sp (x : Reg) (f : Bool) (r : Byte) : (s.setFlagThenReg x f r).sp = s.sp := rfl
@[simp] theorem State.setFlagThenReg_dt (x : Reg) (f : Bool) (r : Byte) : (s.setFlagThenReg x f r).dt = s.dt := rfl
@[simp] theorem State.setFlagThenReg_st (x : Reg) (f : Bool) (r : Byte) : (s.setFlagThenReg x f r).st = s.st := rfl
@[simp] theorem State.setFlagThenReg_disp (x : Reg) (f : Bool) (r : Byte) : (s.setFlagThenReg x f r).disp = s.disp := rfl
@[simp] theorem State.setFlagThenReg_changed (x : Reg) (f : Bool) (r : Byte) : (s.setFlagThenReg x f r).changed = s.changed := rfl
@[simp] theorem State.setFlagThenReg_keysCur (x : Reg) (f : Bool) (r : Byte) : (s.setFlagThenReg x f r).keysCur = s.keysCur := rfl
@[simp] theorem State.setFlagThenReg_keysPrev (x : Reg) (f : Bool) (r : Byte) : (s.setFlagThenReg x f r).keysPrev = s.keysPrev := rfl
@[simp] theorem State.setFlagThenReg_fault (x : Reg) (f : Bool) (r : Byte) : (s.setFlagThenReg x f r).fault = s.fault := rfl
@[simp] theorem State.setFlagThenReg_rnd (x : Reg) (f : Bool) (r : Byte) : (s.setFlagThenReg x f r).rnd = s.rnd := rfl
@[simp] theorem State.setFlagThenReg_draws (x : Reg) (f : Bool) (r : Byte) : (s.setFlagThenReg x f r).draws = s.draws := rfl
@[simp] theorem State.setFlagThenReg_byteAt (x : Reg) (f : Bool) (r : Byte) (at' : Addr) : (s.setFlagThenReg x f r).byteAt at' = s.byteAt at' := rfl

/-! `tick` -/

@[simp] theorem tick_mem : (tick s).mem = s.mem := rfl
@[simp] theorem tick_v : (tick s).v = s.v := rfl
@[simp] theorem tick_i : (tick s).i = s.i := rfl
@[simp] theorem tick_pc : (tick s).pc = s.pc := rfl
@[simp] theorem tick_stack : (tick s).stack = s.stack := rfl
@[simp] theorem tick_sp : (tick s).sp = s.sp := rfl
@[simp] theorem tick_dt : (tick s).dt = countDown s.dt := rfl
@[simp] theorem tick_st : (tick s).st = countDown s.st := rfl
@[simp] theorem tick_disp : (tick s).disp = s.disp := rfl
@[simp] theorem tick_changed : (tick s).changed = s.changed := rfl
@[simp] theorem tick_keysCur : (tick s).keysCur = s.keysCur := rfl
@[simp] theorem tick_keysPrev : (tick s).keysPrev = s.keysPrev := rfl
@[simp] theorem tick_fault : (tick s).fault = s.fault := rfl
@[simp] theorem tick_rnd : (tick s).rnd = s.rnd := rfl
@[simp] theorem tick_draws : (tick s).draws = s.draws := rfl
@[simp] theorem tick_byteAt (at' : Addr) : (tick s).byteAt at' = s.byteAt at' := rfl
@[simp] theorem tick_reg (y : Reg) : (tick s).reg y = s.reg y := rfl

/-! `keyUpdate` -/

@[simp] theorem keyUpdate_mem (k : BitVec 16) : (keyUpdate k s).mem = s.mem := rfl
@[simp] theorem keyUpdate_v (k : BitVec 16) : (keyUpdate k s).v = s.v := rfl
@[simp] theorem keyUpdate_i (k : BitVec 16) : (keyUpdate k s).i = s.i := rfl
@[simp] theorem keyUpdate_pc (k : BitVec 16) : (keyUpdate k s).pc = s.pc := rfl
@[simp] theorem keyUpdate_stack (k : BitVec 16) : (keyUpdate k s).stack = s.stack := rfl
@[simp] theorem keyUpdate_sp (k : BitVec 16) : (keyUpdate k s).sp = s.sp := rfl
@[simp] theorem keyUpdate_dt (k : BitVec 16) : (keyUpdate k s).dt = s.dt := rfl
@[simp] theorem keyUpdate_st (k : BitVec 16) : (keyUpdate k s).st = s.st := rfl
@[simp] theorem keyUpdate_disp (k : BitVec 16) : (keyUpdate k s).disp = s.disp := rfl
@[simp] theorem keyUpdate_changed (k : BitVec 16) : (keyUpdate k s).changed = s.changed := rfl
@[simp] theorem keyUpdate_keysCur (k : BitVec 16) : (keyUpdate k s).keysCur = k := rfl
@[simp] theorem keyUpdate_keysPrev (k : BitVec 16) : (keyUpdate k s).keysPrev = s.keysCur := rfl
@[simp] theorem keyUpdate_fault (k : BitVec 16) : (keyUpdate k s).fault = s.fault := rfl
@[simp] theorem keyUpdate_rnd (k : BitVec 16) : (keyUpdate k s).rnd = s.rnd := rfl
@[simp] theorem keyUpdate_draws (k : BitVec 16) : (keyUpdate k s).draws = s.draws := rfl
@[simp] theorem keyUpdate_byteAt (k : BitVec 16) (at' : Addr) : (keyUpdate k s).byteAt at' = s.byteAt at' := rfl
@[simp] theorem keyUpdate_reg (k : BitVec 16) (y : Reg) : (keyUpdate k s).reg y = s.reg y := rfl

/-! `displayAck` -/

@[simp] theorem displayAck_mem : (displayAck s).mem = s.mem := rfl
@[simp] theorem displayAck_v : (displayAck s).v = s.v := rfl
@[simp] theorem displayAck_i : (displayAck s).i = s.i := rfl
@[simp] theorem displayAck_pc : (displayAck s).pc = s.pc := rfl
@[simp] theorem displayAck_stack : (displayAck s).stack = s.stack := rfl
@[simp] theorem displayAck_sp : (displayAck s).sp = s.sp := rfl
@[simp] theorem displayAck_dt : (displayAck s).dt = s.dt := rfl
@[simp] theorem displayAck_st : (displayAck s).st = s.st := rfl
@[simp] theorem displayAck_disp : (displayAck s).disp = s.disp := rfl
@[simp] theorem displayAck_changed : (displayAck s).changed = false := rfl
@[simp] theorem displayAck_keysCur : (displayAck s).keysCur = s.keysCur := rfl
@[simp] theorem displayAck_keysPrev : (displayAck s).keysPrev = s.keysPrev := rfl
@[simp] theorem displayAck_fault : (displayAck s).fault = s.fault := rfl
@[simp] theorem displayAck_rnd : (displayAck s).rnd = s.rnd := rfl
@[simp] theorem displayAck_draws : (displayAck s).draws = s.draws := rfl
@[simp] theorem displayAck_byteAt (at' : Addr) : (displayAck s).byteAt at' = s.byteAt at' := rfl
@[simp] theorem displayAck_reg (y : Reg) : (displayAck s).reg y = s.reg y := rfl

/-! `skipIf` -/

@[simp] theorem State.skipIf_pc (c : Bool) : (s.skipIf c).pc = if c then s.pc + Config.instrBytes else s.pc := by
  cases c <;> rfl
@[simp] theorem State.skipIf_mem (c : Bool) : (s.skipIf c).mem = s.mem := by cases c <;> rfl
@[simp] theorem State.skipIf_v (c : Bool) : (s.skipIf c).v = s.v := by cases c <;> rfl
@[simp] theorem State.skipIf_i (c : Bool) : (s.skipIf c).i = s.i := by cases c <;> rfl
@[simp] theorem State.skipIf_stack (c : Bool) : (s.skipIf c).stack = s.stack := by cases c <;> rfl
@[simp] theorem State.skipIf_sp (c : Bool) : (s.skipIf c).sp = s.sp := by cases c <;> rfl
@[simp] theorem State.skipIf_dt (c : Bool) : (s.skipIf c).dt = s.dt := by cases c <;> rfl
@[simp] theorem State.skipIf_st (c : Bool) : (s.skipIf c).st = s.st := by cases c <;> rfl
@[simp] theorem State.skipIf_disp (c : Bool) : (s.skipIf c).disp = s.disp := by cases c <;> rfl
@[simp] theorem State.skipIf_changed (c : Bool) : (s.skipIf c).changed = s.changed := by cases c <;> rfl
@[simp] theorem State.skipIf_keysCur (c : Bool) : (s.skipIf c).keysCur = s.keysCur := by cases c <;> rfl
@[simp] theorem State.skipIf_keysPrev (c : Bool) : (s.skipIf c).keysPrev = s.keysPrev := by cases c <;> rfl
@[simp] theorem State.skipIf_fault (c : Bool) : (s.skipIf c).fault = s.fault := by cases c <;> rfl
@[simp] theorem State.skipIf_rnd (c : Bool) : (s.skipIf c).rnd = s.rnd := by cases c <;> rfl
@[simp] theorem State.skipIf_draws (c : Bool) : (s.skipIf c).draws = s.draws := by cases c <;> rfl
@[simp] theorem State.skipIf_byteAt (c : Bool) (at' : Addr) : (s.skipIf c).byteAt at' = s.byteAt at' := by cases c <;> rfl
@[simp] theorem State.skipIf_reg (c : Bool) (y : Reg) : (s.skipIf c).reg y = s.reg y := by cases c <;> rfl

end Sys2Proof.Machine
end

