-- ==== Sys2Proof/Laws/Ops.lean ====
section
/-! SUPPORT. One law per shared operation of Machine/: everything it does, so that a proof cites it instead of
unfolding the operation. -/

namespace Sys2Proof.Machine

variable (s : State)

/-! ## Registers -/

/-- A register after a register write (R21). -/
theorem State.reg_setReg (x y : Reg) (b : Byte) : (s.setReg x b).reg y = if y = x then b else s.reg y := by
  simp only [State.reg, State.setReg, Fin.getElem_fin, Vector.getElem_set, Fin.ext_iff, eq_comm]

@[simp] theorem State.reg_setReg_same (x : Reg) (b : Byte) : (s.setReg x b).reg x = b := by
  simp [State.reg_setReg]

theorem State.reg_setReg_other {x y : Reg} (h : y ≠ x) (b : Byte) : (s.setReg x b).reg y = s.reg y := by
  simp [State.reg_setReg, h]

/-- The destination is written last, so it holds the result whatever register it is (R162). -/
@[simp] theorem State.reg_setFlagThenReg_dest (x : Reg) (f : Bool) (r : Byte) :
    (s.setFlagThenReg x f r).reg x = r := by
  simp [State.setFlagThenReg]

/-- VF holds the flag when the destination is another register (R156). -/
theorem State.reg_setFlagThenReg_flag {x : Reg} (h : x ≠ regF) (f : Bool) (r : Byte) :
    (s.setFlagThenReg x f r).reg regF = flagByte f := by
  simp [State.setFlagThenReg, State.reg_setReg_other _ h.symm]

theorem State.reg_setFlagThenReg_other {x y : Reg} (hx : y ≠ x) (hf : y ≠ regF) (f : Bool) (r : Byte) :
    (s.setFlagThenReg x f r).reg y = s.reg y := by
  simp [State.setFlagThenReg, State.reg_setReg_other _ hx, State.reg_setReg_other _ hf]

/-! ## Fetch, rewind, raise -/

/-- The rewind undoes the fetch's advance, at every address (R222). -/
@[simp] theorem State.rewind_advance : s.advance.rewind = s := by
  simp [State.advance, State.rewind, State.setPc]

/-- Raising a fault after the fetch leaves the state before the step, but for `fault` (R247). -/
@[simp] theorem State.raise_advance (f : FaultCode) : s.advance.raise f = { s with fault := f } := by
  simp [State.raise]

/-! ## Stack -/

@[simp] theorem State.top_push (a : Addr) : (s.push a).top = a := by
  simp [State.top, State.push]

/-- A slot other than the one pushed keeps its value (R122). -/
theorem State.stack_push_other (a : Addr) {k : Fin 16} (h : k ≠ (s.sp + 1).toFin) :
    (s.push a).stack[k] = s.stack[k] := by
  have hk : ¬ (s.sp + 1).toNat = k.val := fun e => h (Fin.ext e.symm)
  simp only [State.push, Fin.getElem_fin, Vector.getElem_set, if_neg hk]

/-! ## Memory -/

@[simp] theorem Memory.length_readBytes (m : Memory) (n : Nat) : ∀ a : Addr, (Memory.readBytes m a n).length = n := by
  induction n with
  | zero => intro a; rfl
  | succ n ih => intro a; simp [Memory.readBytes, ih]

@[simp] theorem State.length_bytesAt (a : Addr) (n : Nat) : (s.bytesAt a n).length = n :=
  Memory.length_readBytes s.mem n a

/-- The next address and k more is k + 1 on (R61). -/
theorem addr_succ (a : Addr) (k : Nat) : a + 1 + BitVec.ofNat 12 k = a + BitVec.ofNat 12 (k + 1) := by
  have one : (1 : Addr).toNat = 1 := rfl
  apply BitVec.eq_of_toNat_eq
  simp only [BitVec.toNat_add, BitVec.toNat_ofNat, one]
  omega

/-- The k-th of the bytes at ascending addresses (R66). -/
theorem Memory.getElem_readBytes (m : Memory) (n : Nat) :
    ∀ (a : Addr) (k : Nat) (h : k < (Memory.readBytes m a n).length),
      (Memory.readBytes m a n)[k] = Memory.read m (a + BitVec.ofNat 12 k).toNat := by
  induction n with
  | zero => intro a k h; simp [Memory.readBytes] at h
  | succ n ih =>
    intro a k h
    cases k with
    | zero => simp [Memory.readBytes]
    | succ k =>
      simp only [Memory.readBytes, List.getElem_cons_succ]
      rw [ih, addr_succ]

/-- The k-th of the bytes at ascending addresses (R66). -/
theorem State.getElem_bytesAt (a : Addr) (n k : Nat) (h : k < (s.bytesAt a n).length) :
    (s.bytesAt a n)[k] = s.byteAt (a + BitVec.ofNat 12 k) :=
  Memory.getElem_readBytes s.mem n a k h

/-- The bytes stored read back, in a canonical memory (R71). -/
theorem State.byteAt_storeBytes (a : Addr) (bs : List Byte) (k : Nat) (hk : k < bs.length)
    (hm : Memory.wf s.mem = true) (hlen : bs.length ≤ Config.memSize) :
    (s.storeBytes a bs).byteAt (a + BitVec.ofNat 12 k) = bs[k] :=
  Memory.read_writeBytes bs s.mem a k hk hm hlen

/-- An address outside the bytes stored reads as before, in every state (R68). -/
theorem State.byteAt_storeBytes_other (a a' : Addr) (bs : List Byte)
    (h : ∀ k, k < bs.length → a' ≠ a + BitVec.ofNat 12 k) : (s.storeBytes a bs).byteAt a' = s.byteAt a' :=
  Memory.read_writeBytes_other a' bs s.mem a h

/-! ## Bulk load -/

/-- A register after bytes are written to registers from `k` on. -/
theorem getElem_loadFrom (bs : List Byte) :
    ∀ (v : Vector Byte 16) (k j : Nat) (hj : j < 16),
      (loadFrom v k bs)[j] = if h : k ≤ j ∧ j - k < bs.length then bs[j - k]'h.2 else v[j] := by
  induction bs with
  | nil => intro v k j hj; simp [loadFrom]
  | cons b bs ih =>
    intro v k j hj
    rw [loadFrom, ih]
    by_cases hjk : j = k
    · subst hjk
      simp
    · by_cases hle : k ≤ j
      · have h1 : k + 1 ≤ j := by omega
        have h2 : j - k = (j - (k + 1)) + 1 := by omega
        simp only [h1, hle, true_and, h2, List.length_cons, Nat.add_lt_add_iff_right, List.getElem_cons_succ]
        split
        · rfl
        · exact Vector.getElem_setIfInBounds_ne hj (by omega)
      · have h1 : ¬ k + 1 ≤ j := by omega
        simp only [h1, hle, false_and, dite_false]
        exact Vector.getElem_setIfInBounds_ne hj (by omega)

/-- A register after the bulk load (R186). -/
theorem State.reg_loadRegs (x k : Reg) : (s.loadRegs x).reg k = if k ≤ x then s.byteAt (s.ea k.val) else s.reg k := by
  simp only [State.reg, State.loadRegs, Fin.getElem_fin, getElem_loadFrom, State.length_bytesAt, Nat.sub_zero, Nat.zero_le,
    true_and]
  have hiff : k.val < x.val + 1 ↔ k ≤ x := Nat.lt_succ_iff
  by_cases h : k ≤ x
  · rw [dif_pos (hiff.mpr h), if_pos h, State.getElem_bytesAt, State.ea]
  · rw [dif_neg (fun hh => h (hiff.mp hh)), if_neg h]

/-! ## Keys -/

/-- The edge found is a rising edge and the lowest one (R222). -/
theorem State.lowestEdge_some {k : Reg} (h : s.lowestEdge = some k) :
    s.keyEdge k = true ∧ ∀ j : Reg, j < k → s.keyEdge j = false := by
  have hl : s.lowestEdge = (List.finRange 16).find? s.keyEdge := rfl
  rw [hl] at h
  refine ⟨List.find?_some h, fun j hj => ?_⟩
  obtain ⟨_, as, bs, hsplit, hno⟩ := List.find?_eq_some_iff_append.mp h
  have hmem : j ∈ as := by
    have hs : (List.finRange 16).Pairwise (· < ·) := List.pairwise_lt_finRange 16
    have hj' : j ∈ as ++ k :: bs := hsplit ▸ List.mem_finRange j
    rw [hsplit, List.pairwise_append] at hs
    rcases List.mem_append.mp hj' with h1 | h1
    · exact h1
    · rcases List.mem_cons.mp h1 with rfl | h2
      · exact absurd hj (lt_irrefl _)
      · exact absurd hj (not_lt.mpr (le_of_lt ((List.pairwise_cons.mp hs.2.1).1 j h2)))
  simpa using hno j hmem

/-- No edge is found exactly when there is none (R222). -/
theorem State.lowestEdge_none : s.lowestEdge = none ↔ ∀ k : Reg, s.keyEdge k = false := by
  have hl : s.lowestEdge = (List.finRange 16).find? s.keyEdge := rfl
  rw [hl, List.find?_eq_none]
  simp

/-! ## Display -/

/-- The next row and k more is k + 1 on (R203). -/
theorem line_succ (y : BitVec 5) (k : Nat) : y + 1 + BitVec.ofNat 5 k = y + BitVec.ofNat 5 (k + 1) := by
  have one : (1 : BitVec 5).toNat = 1 := rfl
  apply BitVec.eq_of_toNat_eq
  simp only [BitVec.toNat_add, BitVec.toNat_ofNat, one]
  omega

/-- Rows below the first of at most 32 rows are other rows (R201). -/
theorem line_ne (y : BitVec 5) (k : Nat) (h : k < 31) : y.toNat ≠ (y + 1 + BitVec.ofNat 5 k).toNat := by
  have := y.isLt
  have one : (1 : BitVec 5).toNat = 1 := rfl
  simp only [BitVec.toNat_add, BitVec.toNat_ofNat, one]
  omega

/-- A row no sprite byte falls in is unchanged (R201). -/
theorem drawRows_other (x0 : BitVec 6) (bs : List Byte) :
    ∀ (y : BitVec 5) (d : Vector Row 32) (hit : Bool) (r : Nat) (hr : r < 32),
      (∀ k, k < bs.length → r ≠ (y + BitVec.ofNat 5 k).toNat) → (drawRows x0 y d hit bs).1[r] = d[r] := by
  induction bs with
  | nil => intro y d hit r hr _; rfl
  | cons b bs ih =>
    intro y d hit r hr h
    have h0 : y.toNat ≠ r := fun e => by simpa [e] using h 0 (by simp)
    rw [drawRows, ih]
    · simp only [Vector.getElem_set, if_neg h0]
    · intro k hk
      rw [line_succ]
      exact h (k + 1) (by simpa using hk)

/-- The row of the k-th sprite byte is XORed with its mask (R201). -/
theorem drawRows_row (x0 : BitVec 6) (bs : List Byte) :
    ∀ (y : BitVec 5) (d : Vector Row 32) (hit : Bool) (k : Nat) (hk : k < bs.length), bs.length ≤ 32 →
      (drawRows x0 y d hit bs).1[(y + BitVec.ofNat 5 k).toNat] =
        d[(y + BitVec.ofNat 5 k).toNat] ^^^ rowMask bs[k] x0 := by
  induction bs with
  | nil => intro y d hit k hk; simp at hk
  | cons b bs ih =>
    intro y d hit k hk hlen
    simp only [List.length_cons] at hk hlen
    cases k with
    | zero =>
      simp only [BitVec.ofNat_eq_ofNat, BitVec.add_zero, List.getElem_cons_zero, drawRows]
      rw [drawRows_other]
      · simp
      · intro k hk
        exact line_ne y k (by omega)
    | succ k =>
      simp only [← line_succ, List.getElem_cons_succ, drawRows]
      rw [ih _ _ _ k (by omega) (by omega)]
      simp only [Vector.getElem_set, if_neg (line_ne y k (by omega))]

/-- The collision found: there was one before, or a sprite byte's mask meets a lit pixel of its row (R201). -/
theorem drawRows_hit (x0 : BitVec 6) (bs : List Byte) :
    ∀ (y : BitVec 5) (d : Vector Row 32) (hit : Bool), bs.length ≤ 32 →
      ((drawRows x0 y d hit bs).2 = true ↔ hit = true ∨ ∃ (k : Nat) (hk : k < bs.length),
        d[(y + BitVec.ofNat 5 k).toNat] &&& rowMask bs[k] x0 ≠ 0) := by
  induction bs with
  | nil => intro y d hit _; simp [drawRows]
  | cons b bs ih =>
    intro y d hit hlen
    simp only [List.length_cons] at hlen
    rw [drawRows, ih _ _ _ (by omega), Bool.or_eq_true, decide_eq_true_eq, or_assoc]
    refine or_congr_right ?_
    constructor
    · rintro (h | ⟨k, hk, h⟩)
      · exact ⟨0, by simp, by simpa using h⟩
      · refine ⟨k + 1, by simpa using hk, ?_⟩
        simp only [Vector.getElem_set, if_neg (line_ne y k (by omega))] at h
        simpa only [← line_succ, List.getElem_cons_succ] using h
    · rintro ⟨k, hk, h⟩
      cases k with
      | zero => exact Or.inl (by simpa using h)
      | succ k =>
        simp only [List.length_cons] at hk
        refine Or.inr ⟨k, by omega, ?_⟩
        simp only [Vector.getElem_set, if_neg (line_ne y k (by omega))]
        simpa only [← line_succ, List.getElem_cons_succ] using h

/-- A bit of a row mask: the sprite bit `i` positions further left, if it is one of the eight (R201). -/
theorem getLsbD_rowMask (b : Byte) (x0 : BitVec 6) (i : Nat) (hi : i < 64) :
    (rowMask b x0).getLsbD i = (decide (56 ≤ (i + x0.toNat) % 64) && b.getLsbD ((i + x0.toNat) % 64 - 56)) := by
  have hx := x0.isLt
  rw [rowMask, BitVec.getLsbD_rotateRight, Nat.mod_eq_of_lt (by omega)]
  by_cases hlt : i < 64 - x0.toNat
  · have h1 : (i + x0.toNat) % 64 = x0.toNat + i := by omega
    simp only [h1, hlt, decide_true, cond_true, BitVec.getLsbD_shiftLeft, BitVec.getLsbD_setWidth]
    by_cases h56 : 56 ≤ x0.toNat + i
    · have h2 : x0.toNat + i < 64 := by omega
      have h3 : ¬ x0.toNat + i < 56 := by omega
      have h4 : x0.toNat + i - 56 < 64 := by omega
      simp [h56, h2, h3, h4]
    · simp [h56]
  · have h1 : (i + x0.toNat) % 64 = i - (64 - x0.toNat) := by omega
    simp only [h1, hlt, decide_false, cond_false, BitVec.getLsbD_shiftLeft, BitVec.getLsbD_setWidth]
    by_cases h56 : 56 ≤ i - (64 - x0.toNat)
    · have h2 : i - (64 - x0.toNat) < 64 := by omega
      have h3 : ¬ i - (64 - x0.toNat) < 56 := by omega
      have h4 : i - (64 - x0.toNat) - 56 < 64 := by omega
      simp [h56, hi, h2, h3, h4]
    · simp [h56]

end Sys2Proof.Machine
end

