-- ==== Sys2Proof/Laws/PerInstr.lean ====
section
/-! SUPPORT. Facts about every instruction as syntax, one lemma per constructor. -/

namespace Sys2Proof.Laws.EncodedRow

/-- The row of the opcode table (spec 30_encoding.md R96) with the instruction's number is selected by its word. -/
def Statement (i : Instr) : Prop := ∃ r, opcodeTable[i.row - 1]? = some r ∧ r.num = i.row ∧ r.selects (encode i) = true

theorem and_nibble (f : BitVec 4) : f &&& 0xF#4 = f := by
  revert f
  decide

theorem and_byte (b : Byte) : b &&& 0xFF#8 = b := BitVec.and_allOnes

/-- The mask F000 keeps the family of a word of format ADDR. -/
theorem maskFamily_formAddr (f : BitVec 4) (nnn : Addr) : formAddr f nnn &&& 0xF000 = formAddr f 0 :=
  (BitVec.and_append (x₁ := f) (x₂ := 0xF#4) (y₁ := nnn) (y₂ := 0x000#12)).trans
    (by rw [and_nibble, BitVec.and_zero]; rfl)

/-- The mask F000 keeps the family of a word of format REG_IMM. -/
theorem maskFamily_formRegImm (f : BitVec 4) (x : Reg) (nn : Byte) :
    formRegImm f x nn &&& 0xF000 = formRegImm f 0 0 :=
  (BitVec.and_append (x₁ := f ++ BitVec.ofFin (w := 4) x) (x₂ := 0xF#4 ++ 0x0#4) (y₁ := nn) (y₂ := 0x00#8)).trans
    (by rw [BitVec.and_append, and_nibble, BitVec.and_zero, BitVec.and_zero]; rfl)

/-- The mask F000 keeps the family of a word of format REG_REG. -/
theorem maskFamily_formRegReg (f : BitVec 4) (x y : Reg) (n : BitVec 4) :
    formRegReg f x y n &&& 0xF000 = formRegReg f 0 0 0 :=
  (BitVec.and_append (x₁ := f ++ BitVec.ofFin (w := 4) x) (x₂ := 0xF#4 ++ 0x0#4)
      (y₁ := BitVec.ofFin (w := 4) y ++ n) (y₂ := 0x00#8)).trans
    (by rw [BitVec.and_append, and_nibble, BitVec.and_zero, BitVec.and_zero]; rfl)

/-- The mask F00F keeps the family and the low nibble. -/
theorem maskNibble_formRegReg (f : BitVec 4) (x y : Reg) (n : BitVec 4) :
    formRegReg f x y n &&& 0xF00F = formRegReg f 0 0 n :=
  (BitVec.and_append (x₁ := f ++ BitVec.ofFin (w := 4) x) (x₂ := 0xF#4 ++ 0x0#4)
      (y₁ := BitVec.ofFin (w := 4) y ++ n) (y₂ := 0x0#4 ++ 0xF#4)).trans
    (by rw [BitVec.and_append, BitVec.and_append, and_nibble, and_nibble, BitVec.and_zero, BitVec.and_zero]; rfl)

/-- The mask F0FF keeps the family and the low byte. -/
theorem maskByte_formRegImm (f : BitVec 4) (x : Reg) (nn : Byte) :
    formRegImm f x nn &&& 0xF0FF = formRegImm f 0 nn :=
  (BitVec.and_append (x₁ := f ++ BitVec.ofFin (w := 4) x) (x₂ := 0xF#4 ++ 0x0#4) (y₁ := nn) (y₂ := 0xFF#8)).trans
    (by rw [BitVec.and_append, and_nibble, and_byte, BitVec.and_zero]; rfl)

/-- A word selects a row when masking gives the row's bits. -/
theorem selects_of_mask {r : OpRow} {w : Word} (h : w &&& r.mask = r.bits) : r.selects w = true := decide_eq_true h

theorem cls : Statement .cls := ⟨⟨1, 0xFFFF, 0x00E0⟩, rfl, rfl, rfl⟩
theorem ret : Statement .ret := ⟨⟨2, 0xFFFF, 0x00EE⟩, rfl, rfl, rfl⟩
theorem jp (nnn : Addr) : Statement (.jp nnn) := ⟨⟨3, 0xF000, 0x1000⟩, rfl, rfl, selects_of_mask (maskFamily_formAddr ..)⟩
theorem call (nnn : Addr) : Statement (.call nnn) := ⟨⟨4, 0xF000, 0x2000⟩, rfl, rfl, selects_of_mask (maskFamily_formAddr ..)⟩
theorem seImm (x : Reg) (nn : Byte) : Statement (.seImm x nn) := ⟨⟨5, 0xF000, 0x3000⟩, rfl, rfl, selects_of_mask (maskFamily_formRegImm ..)⟩
theorem sneImm (x : Reg) (nn : Byte) : Statement (.sneImm x nn) := ⟨⟨6, 0xF000, 0x4000⟩, rfl, rfl, selects_of_mask (maskFamily_formRegImm ..)⟩
theorem seReg (x y : Reg) (n : BitVec 4) : Statement (.seReg x y n) := ⟨⟨7, 0xF000, 0x5000⟩, rfl, rfl, selects_of_mask (maskFamily_formRegReg ..)⟩
theorem ldImm (x : Reg) (nn : Byte) : Statement (.ldImm x nn) := ⟨⟨8, 0xF000, 0x6000⟩, rfl, rfl, selects_of_mask (maskFamily_formRegImm ..)⟩
theorem addImm (x : Reg) (nn : Byte) : Statement (.addImm x nn) := ⟨⟨9, 0xF000, 0x7000⟩, rfl, rfl, selects_of_mask (maskFamily_formRegImm ..)⟩
theorem ldReg (x y : Reg) : Statement (.ldReg x y) := ⟨⟨10, 0xF00F, 0x8000⟩, rfl, rfl, selects_of_mask (maskNibble_formRegReg ..)⟩
theorem orReg (x y : Reg) : Statement (.orReg x y) := ⟨⟨11, 0xF00F, 0x8001⟩, rfl, rfl, selects_of_mask (maskNibble_formRegReg ..)⟩
theorem andReg (x y : Reg) : Statement (.andReg x y) := ⟨⟨12, 0xF00F, 0x8002⟩, rfl, rfl, selects_of_mask (maskNibble_formRegReg ..)⟩
theorem xorReg (x y : Reg) : Statement (.xorReg x y) := ⟨⟨13, 0xF00F, 0x8003⟩, rfl, rfl, selects_of_mask (maskNibble_formRegReg ..)⟩
theorem addReg (x y : Reg) : Statement (.addReg x y) := ⟨⟨14, 0xF00F, 0x8004⟩, rfl, rfl, selects_of_mask (maskNibble_formRegReg ..)⟩
theorem sub (x y : Reg) : Statement (.sub x y) := ⟨⟨15, 0xF00F, 0x8005⟩, rfl, rfl, selects_of_mask (maskNibble_formRegReg ..)⟩
theorem shr (x y : Reg) : Statement (.shr x y) := ⟨⟨16, 0xF00F, 0x8006⟩, rfl, rfl, selects_of_mask (maskNibble_formRegReg ..)⟩
theorem subn (x y : Reg) : Statement (.subn x y) := ⟨⟨17, 0xF00F, 0x8007⟩, rfl, rfl, selects_of_mask (maskNibble_formRegReg ..)⟩
theorem shl (x y : Reg) : Statement (.shl x y) := ⟨⟨18, 0xF00F, 0x800E⟩, rfl, rfl, selects_of_mask (maskNibble_formRegReg ..)⟩
theorem sneReg (x y : Reg) (n : BitVec 4) : Statement (.sneReg x y n) := ⟨⟨19, 0xF000, 0x9000⟩, rfl, rfl, selects_of_mask (maskFamily_formRegReg ..)⟩
theorem ldI (nnn : Addr) : Statement (.ldI nnn) := ⟨⟨20, 0xF000, 0xA000⟩, rfl, rfl, selects_of_mask (maskFamily_formAddr ..)⟩
theorem jpV0 (nnn : Addr) : Statement (.jpV0 nnn) := ⟨⟨21, 0xF000, 0xB000⟩, rfl, rfl, selects_of_mask (maskFamily_formAddr ..)⟩
theorem rnd (x : Reg) (nn : Byte) : Statement (.rnd x nn) := ⟨⟨22, 0xF000, 0xC000⟩, rfl, rfl, selects_of_mask (maskFamily_formRegImm ..)⟩
theorem drw (x y : Reg) (n : BitVec 4) : Statement (.drw x y n) := ⟨⟨23, 0xF000, 0xD000⟩, rfl, rfl, selects_of_mask (maskFamily_formRegReg ..)⟩
theorem skp (x : Reg) : Statement (.skp x) := ⟨⟨24, 0xF0FF, 0xE09E⟩, rfl, rfl, selects_of_mask (maskByte_formRegImm ..)⟩
theorem sknp (x : Reg) : Statement (.sknp x) := ⟨⟨25, 0xF0FF, 0xE0A1⟩, rfl, rfl, selects_of_mask (maskByte_formRegImm ..)⟩
theorem ldVxDt (x : Reg) : Statement (.ldVxDt x) := ⟨⟨26, 0xF0FF, 0xF007⟩, rfl, rfl, selects_of_mask (maskByte_formRegImm ..)⟩
theorem ldVxK (x : Reg) : Statement (.ldVxK x) := ⟨⟨27, 0xF0FF, 0xF00A⟩, rfl, rfl, selects_of_mask (maskByte_formRegImm ..)⟩
theorem ldDtVx (x : Reg) : Statement (.ldDtVx x) := ⟨⟨28, 0xF0FF, 0xF015⟩, rfl, rfl, selects_of_mask (maskByte_formRegImm ..)⟩
theorem ldStVx (x : Reg) : Statement (.ldStVx x) := ⟨⟨29, 0xF0FF, 0xF018⟩, rfl, rfl, selects_of_mask (maskByte_formRegImm ..)⟩
theorem addI (x : Reg) : Statement (.addI x) := ⟨⟨30, 0xF0FF, 0xF01E⟩, rfl, rfl, selects_of_mask (maskByte_formRegImm ..)⟩
theorem ldF (x : Reg) : Statement (.ldF x) := ⟨⟨31, 0xF0FF, 0xF029⟩, rfl, rfl, selects_of_mask (maskByte_formRegImm ..)⟩
theorem ldB (x : Reg) : Statement (.ldB x) := ⟨⟨32, 0xF0FF, 0xF033⟩, rfl, rfl, selects_of_mask (maskByte_formRegImm ..)⟩
theorem ldMemVx (x : Reg) : Statement (.ldMemVx x) := ⟨⟨33, 0xF0FF, 0xF055⟩, rfl, rfl, selects_of_mask (maskByte_formRegImm ..)⟩
theorem ldVxMem (x : Reg) : Statement (.ldVxMem x) := ⟨⟨34, 0xF0FF, 0xF065⟩, rfl, rfl, selects_of_mask (maskByte_formRegImm ..)⟩

end Sys2Proof.Laws.EncodedRow
end

