-- ==== Sys2Proof/Laws/Step.lean ====
section
/-! SUPPORT. What a step and a move can do, said once; the fetch of a stored word; frames. -/

namespace Sys2Proof.Machine

/-- Everything a step can be (R120): stuck when faulted, a no-op on a non-match, or the execution of the instruction
fetched. -/
theorem step_cases (s : State) :
    (s.fault ≠ .none ∧ step s = .next s) ∨
    (s.fault = .none ∧ ∃ why, decode s.fetchWord = .nonMatch why ∧ step s = .next s.advance) ∨
    (s.fault = .none ∧ ∃ i, decode s.fetchWord = .instr i ∧ step s = exec i s.advance) := by
  unfold step
  cases hf : s.fault with
  | none =>
    cases hd : decode s.fetchWord with
    | nonMatch why => exact .inr (.inl ⟨rfl, why, rfl, rfl⟩)
    | instr i => exact .inr (.inr ⟨rfl, i, rfl, rfl⟩)
  | stackOverflow => exact .inl ⟨by simp, rfl⟩
  | stackUnderflow => exact .inl ⟨by simp, rfl⟩

/-- The word stored for the next fetch is the word fetched, in a canonical memory. -/
theorem fetchWord_withFetchWord (s : State) (w : Word) (hm : Memory.wf s.mem = true) :
    (s.withFetchWord 16 w.toNat).fetchWord = w := by
  have hw : BitVec.ofNat 16 (w.toNat % 2 ^ 16) = w := by
    rw [Nat.mod_eq_of_lt w.isLt, BitVec.ofNat_toNat, BitVec.setWidth_eq]
  have h (k : Nat) (hk : k < 2) := s.byteAt_storeBytes s.pc [w.highByte, w.lowByte] k hk hm (by simp [Config.memSize])
  have h0 : (s.storeBytes s.pc [w.highByte, w.lowByte]).byteAt s.pc = w.highByte :=
    (congrArg _ (BitVec.add_zero s.pc).symm).trans (h 0 (by decide))
  have h1 : (s.storeBytes s.pc [w.highByte, w.lowByte]).byteAt (s.pc + 1) = w.lowByte := h 1 (by decide)
  show Word.ofBytes ((s.withFetchWord 16 w.toNat).byteAt s.pc) ((s.withFetchWord 16 w.toNat).byteAt (s.pc + 1)) = w
  simp only [State.withFetchWord, hw]
  show Word.ofBytes ((s.storeBytes s.pc [w.highByte, w.lowByte]).byteAt s.pc)
    ((s.storeBytes s.pc [w.highByte, w.lowByte]).byteAt (s.pc + 1)) = w
  rw [h0, h1, ofBytes_highByte_lowByte]

/-- The next step after `withFetchWord` runs exactly the instruction stored. -/
theorem step_withFetchWord (s : State) (i : Instr) (w : Word) (hm : Memory.wf s.mem = true)
    (hd : decode w = .instr i) : step (s.withFetchWord 16 w.toNat) = exec i (s.withFetchWord 16 w.toNat).advance := by
  rcases step_cases (s.withFetchWord 16 w.toNat) with ⟨hf, _⟩ | ⟨_, why, hn, _⟩ | ⟨_, j, hj, he⟩
  · exact absurd rfl hf
  · rw [fetchWord_withFetchWord s w hm, hd] at hn
    cases hn
  · rw [fetchWord_withFetchWord s w hm, hd] at hj
    cases hj
    exact he

/-! ## The three meanings that look at the state before they choose -/

theorem execCall_full {s : State} (h : s.sp = 15) (nnn : Addr) : execCall nnn s = .next (s.raise .stackOverflow) :=
  if_pos h

theorem execCall_push {s : State} (h : s.sp ≠ 15) (nnn : Addr) : execCall nnn s = .next ((s.push s.pc).setPc nnn) :=
  if_neg h

theorem execRet_empty {s : State} (h : s.sp = 0) : execRet s = .next (s.raise .stackUnderflow) := if_pos h

theorem execRet_pop {s : State} (h : s.sp ≠ 0) : execRet s = .next s.pop := if_neg h

theorem execLdVxK_edge {s : State} {k : Reg} (h : s.lowestEdge = some k) (x : Reg) :
    execLdVxK x s = .next (s.setReg x (BitVec.ofNat 8 k.val)) := by
  simp only [execLdVxK, h]

theorem execLdVxK_wait {s : State} (h : s.lowestEdge = none) (x : Reg) : execLdVxK x s = .next s.rewind := by
  simp only [execLdVxK, h]

/-! ## Moves -/

/-- Everything a move can do when it answers a state (R40): the core's step with its random byte, which no later move
sees, or one operation of the host. -/
theorem move_cases {m : Move} {s t : State} (h : m.apply s = .next t) :
    (∃ b u, m = .step b ∧ step { s with rnd := some b } = .next u ∧ t = { u with rnd := none }) ∨
    (m = .tick ∧ t = tick s) ∨ (∃ keys, m = .keyUpdate keys ∧ t = keyUpdate keys s) ∨
    (m = .displayRead ∧ t = s) ∨ (m = .displayAck ∧ t = displayAck s) := by
  cases m <;> simp only [Move.apply, Host.Outcome.next.injEq] at h
  case step b =>
    simp only [stepWith] at h
    split at h <;> simp only [Host.Outcome.next.injEq, reduceCtorEq] at h
    exact .inl ⟨b, _, rfl, ‹_›, h.symm⟩
  case keyUpdate keys => exact .inr (.inr (.inl ⟨keys, rfl, h.symm⟩))
  all_goals simp [← h, displayRead]

/-! ## Frames -/

theorem Part.same_refl (p : Part) (s : State) : p.same s s := by cases p <;> simp [Part.same]

theorem Part.same_trans {p : Part} {s t u : State} (h : p.same s t) (h' : p.same t u) : p.same s u := by
  cases p <;> simp_all [Part.same]

/-- Nothing written, nothing changed. -/
theorem Frame.refl (ps : List Part) (s : State) : Frame ps s s := fun p _ => Part.same_refl p s

theorem Frame.trans {ps : List Part} {s t u : State} (h : Frame ps s t) (h' : Frame ps t u) : Frame ps s u :=
  fun p hp => Part.same_trans (h p hp) (h' p hp)

/-- A longer list of written parts says less. -/
theorem Frame.mono {ps qs : List Part} {s t : State} (hsub : ps ⊆ qs) (h : Frame ps s t) : Frame qs s t :=
  fun p hp => h p fun hp' => hp (hsub hp')

/-- A register write changes that register alone. -/
theorem frame_setReg (s : State) (x : Reg) (b : Byte) : Frame [.v x] s (s.setReg x b) := by
  intro p hp
  cases p with
  | v y =>
    have hy : y ≠ x := fun e => hp (by simp [e])
    exact s.reg_setReg_other hy b
  | _ => simp [Part.same]

/-- A flag-writing instruction changes VF and its destination alone (R156). -/
theorem frame_setFlagThenReg (s : State) (x : Reg) (f : Bool) (r : Byte) :
    Frame [.v regF, .v x] s (s.setFlagThenReg x f r) :=
  Frame.trans (Frame.mono (by simp) (frame_setReg s regF (flagByte f)))
    (Frame.mono (by simp) (frame_setReg (s.setReg regF (flagByte f)) x r))

theorem row_mem_allRows (y : Fin 32) : Part.row y ∈ allRows := List.mem_map.mpr ⟨y, List.mem_finRange y, rfl⟩

/-- New rows on the display change the rows and `changed` alone (R201). -/
theorem frame_setDisplay (s : State) (disp : Vector Row 32) : Frame (.changed :: allRows) s (s.setDisplay disp) := by
  intro p hp
  cases p with
  | row y => exact absurd (List.mem_cons_of_mem _ (row_mem_allRows y)) hp
  | changed => exact absurd List.mem_cons_self hp
  | random => exact ⟨rfl, rfl⟩
  | _ => rfl

/-- Clearing the display changes the rows and `changed` alone (R200). -/
theorem frame_clearDisplay (s : State) : Frame (.changed :: allRows) s s.clearDisplay :=
  frame_setDisplay s (Vector.replicate 32 0)

/-- A store changes the bytes it stores to alone. -/
theorem frame_storeBytes (s : State) (a : Addr) (bs : List Byte) : Frame (memParts a bs.length) s (s.storeBytes a bs) := by
  intro p hp
  cases p with
  | mem a' =>
    refine s.byteAt_storeBytes_other a a' bs fun k hk e => hp ?_
    exact List.mem_map.mpr ⟨k, List.mem_range.mpr hk, by rw [e]⟩
  | _ => simp [Part.same]

/-- The bulk load changes `V[0]` to `V[X]` alone. -/
theorem frame_loadRegs (s : State) (x : Reg) : Frame (regParts x) s (s.loadRegs x) := by
  intro p hp
  cases p with
  | v k =>
    have hk : ¬ k ≤ x := fun h => hp (by simp [regParts, h])
    simp [Part.same, s.reg_loadRegs, hk]
  | _ => simp [Part.same]

end Sys2Proof.Machine
end

