-- ==== Sys2Proof/Tests/Slice0.lean ====
section
/-! SUPPORT. The model's own tests, each on one step or one decode, and a witness for the hypotheses of every
statement. Expected values come from spec 95_test_vectors.md (V-…, S…), its rules' worked examples, or words written
out from 30_encoding.md R96; no expected value was taken from the model. -/

namespace Sys2Proof.Tests

open Sys2Proof.Machine

/-! ## Helpers -/

/-- The next state of an outcome, if it is one. -/
def nextOf : Host.Outcome State Fault Refusal → Option State
  | .next t => some t
  | .fault _ => none
  | .refused _ => none

/-- One step of the word `w`, stored at the `pc` of `s`. -/
def run (w : Word) (s : State) : Option State := nextOf (step (s.withFetchWord 16 w.toNat))

/-- The state a test starts from: the reset, with some registers written. -/
def regs (rs : List (Reg × Byte)) : State := rs.foldl (fun s r => s.setReg r.1 r.2) State.reset

/-! ## Well-formedness (R101): the one check, and an ill-formed term for it -/

theorem test_wellFormed_refuses_seReg_nibble : (Instr.seReg 0xA 0xB 7).illFormed = some (.lowNibbleNotZero 7) := by decide
theorem test_wellFormed_refuses_sneReg_nibble : (Instr.sneReg 1 2 0xF).wellFormed = false := by decide
theorem test_wellFormed_accepts : (Instr.seReg 1 2 0).wellFormed = true ∧ (Instr.shr 1 2).wellFormed = true := by decide
theorem test_checkWord_names_the_issue :
    checkWord 0x5127 = .error (.notCanonical (.lowNibbleNotZero 7)) ∧ checkWord 0x0000 = .error (.nonMatch .familyZero) ∧
    checkWord 0x8126 = .ok (.shr 1 2) := by decide

/-! ## Decoding: a word of every constructor, written out from R96 and R91 -/

theorem test_decode_flow :
    decode 0x1ABC = .instr (.jp 0xABC) ∧ decode 0x2300 = .instr (.call 0x300) ∧ decode 0x00EE = .instr .ret ∧
    decode 0xB2FF = .instr (.jpV0 0x2FF) ∧ decode 0x3A02 = .instr (.seImm 0xA 0x02) ∧
    decode 0x4A02 = .instr (.sneImm 0xA 0x02) ∧ decode 0x5127 = .instr (.seReg 1 2 7) ∧
    decode 0x912F = .instr (.sneReg 1 2 0xF) := by decide
theorem test_decode_alu_low :
    decode 0x6A02 = .instr (.ldImm 0xA 0x02) ∧ decode 0x7A01 = .instr (.addImm 0xA 0x01) ∧
    decode 0x8120 = .instr (.ldReg 1 2) ∧ decode 0x8121 = .instr (.orReg 1 2) ∧
    decode 0x8122 = .instr (.andReg 1 2) ∧ decode 0x8123 = .instr (.xorReg 1 2) := by decide
theorem test_decode_alu_high :
    decode 0x8AB4 = .instr (.addReg 0xA 0xB) ∧ decode 0x8125 = .instr (.sub 1 2) ∧ decode 0x8126 = .instr (.shr 1 2) ∧
    decode 0x8127 = .instr (.subn 1 2) ∧ decode 0x812E = .instr (.shl 1 2) ∧
    decode 0xC10F = .instr (.rnd 1 0x0F) := by decide
theorem test_decode_index_memory :
    decode 0xA2F0 = .instr (.ldI 0x2F0) ∧ decode 0xF11E = .instr (.addI 1) ∧ decode 0xF129 = .instr (.ldF 1) ∧
    decode 0xF133 = .instr (.ldB 1) ∧ decode 0xF255 = .instr (.ldMemVx 2) ∧ decode 0xF965 = .instr (.ldVxMem 9) := by
  decide
theorem test_decode_display_keys_timers :
    decode 0x00E0 = .instr .cls ∧ decode 0xD12A = .instr (.drw 1 2 0xA) ∧ decode 0xE19E = .instr (.skp 1) ∧
    decode 0xE3A1 = .instr (.sknp 3) ∧ decode 0xF107 = .instr (.ldVxDt 1) ∧ decode 0xF30A = .instr (.ldVxK 3) ∧
    decode 0xF115 = .instr (.ldDtVx 1) ∧ decode 0xF118 = .instr (.ldStVx 1) := by decide
/-- V-DEC: words that select no instruction, each rejected by its name. -/
theorem test_decode_nonMatch :
    decode 0x0000 = .nonMatch .familyZero ∧ decode 0x01E0 = .nonMatch .familyZero ∧
    decode 0x00EF = .nonMatch .familyZero ∧ decode 0x812F = .nonMatch .aluSelector ∧
    decode 0x8128 = .nonMatch .aluSelector ∧ decode 0xE19F = .nonMatch .keySelector ∧
    decode 0xE100 = .nonMatch .keySelector ∧ decode 0xF164 = .nonMatch .miscSelector ∧
    decode 0xF1FF = .nonMatch .miscSelector := by decide
theorem test_decodeBytes :
    decodeBytes [0x6A, 0x02, 0x12] = .ok (.ldImm 0xA 0x02, [0x12]) ∧ decodeBytes [0x6A] = .error .truncated ∧
    decodeBytes [] = .error .truncated ∧ decodeBytes [0x00, 0xE1] = .error (.nonMatch .familyZero) := by decide
theorem test_decodeTableWord : decodeTableWord 16 0x6A02 = some (.ldImm 0xA 0x02) ∧ decodeTableWord 16 0x8128 = none := by
  decide
theorem test_encode : encode (.drw 1 2 0xA) = 0xD12A ∧ encode (.seReg 0xA 0xB 7) = 0x5AB7 ∧ encode .ret = 0x00EE := by decide
/-- Program P6 of 95_test_vectors.md: instructions and a literal byte, with no padding. -/
theorem test_romImage :
    romImage [.code (.jp 0x203), .db [0xAA], .code (.ldImm 0xA 0x07)] = [0x12, 0x03, 0xAA, 0x6A, 0x07] := by decide
theorem test_render :
    (Instr.drw 0 0xF 5).render = "DRW V0, VF, 0x5" ∧ (Instr.jp 0x20C).render = "JP 0x20C" ∧
    (Instr.ldMemVx 2).render = "LD [I], V2" ∧ (Instr.shr 3 0).render = "SHR V3" := by decide

/-! ## Control transfer -/

/-- V-FLOW-1. -/
theorem test_jp : (run 0x1ABC State.reset).map State.pc = some 0xABC := by decide
/-- V-FLOW-5: the value pushed wraps to 000; the first CALL writes `stack[1]`. -/
theorem test_call : (run 0x2300 (State.reset.setPc 0xFFE)).map (fun t => (t.pc, t.sp, t.stack[1], t.stack[0])) =
    some (0x300, 1, 0x000, 0) := by decide
/-- V-FLOW-7. -/
theorem test_call_overflow : (run 0x2300 { State.reset with sp := 15 }).map (fun t => (t.pc, t.sp, t.fault)) =
    some (0x200, 15, .stackOverflow) := by decide
/-- V-FLOW-10. -/
theorem test_ret : (run 0x00EE { State.reset with sp := 15, stack := State.reset.stack.set 15 0xFFF }).map
    (fun t => (t.pc, t.sp, t.stack[15])) = some (0xFFF, 14, 0xFFF) := by decide
/-- V-FLOW-9. -/
theorem test_ret_underflow : (run 0x00EE State.reset).map (fun t => (t.pc, t.sp, t.fault)) =
    some (0x200, 0, .stackUnderflow) := by decide
/-- V-FLOW-12 and V-FLOW-13. -/
theorem test_jpV0 : (run 0xBFFF (regs [(0, 0x02)])).map State.pc = some 0x001 ∧
    (run 0xB2FF (regs [(2, 0x55)])).map State.pc = some 0x2FF := by decide
/-- V-FLOW-17 and V-FLOW-16. -/
theorem test_seImm : (run 0x3A02 ((regs [(0xA, 0x02)]).setPc 0xFFC)).map State.pc = some 0x000 ∧
    (run 0x3A02 (regs [(0xA, 0x03)])).map State.pc = some 0x202 := by decide
/-- V-FLOW-18 and V-FLOW-19. -/
theorem test_sneImm : (run 0x4A02 (regs [(0xA, 0x02)])).map State.pc = some 0x202 ∧
    (run 0x4A02 (regs [(0xA, 0x03)])).map State.pc = some 0x204 := by decide
/-- V-FLOW-21 and V-FLOW-23. -/
theorem test_seReg : (run 0x5120 (regs [(1, 0x7F), (2, 0x80)])).map State.pc = some 0x202 ∧
    (run 0x5127 (regs [(1, 0x7F), (2, 0x7F)])).map State.pc = some 0x204 := by decide
/-- V-FLOW-26 and V-FLOW-27. -/
theorem test_sneReg : (run 0x9110 (regs [(1, 0x33)])).map State.pc = some 0x202 ∧
    (run 0x912F (regs [(1, 0x01), (2, 0x02)])).map State.pc = some 0x204 := by decide
/-- V-FLOW-28: the word straddles the end of memory, high byte at FFF, low byte at 000. -/
theorem test_fetch_wraps : (run 0x6A02 (State.reset.setPc 0xFFF)).map (fun t => (t.pc, t.reg 0xA)) = some (0x001, 2) := by
  decide
/-- V-DEC-7. -/
theorem test_nonMatch : run 0x8128 State.reset = some ((State.reset.withFetchWord 16 0x8128).setPc 0x202) ∧
    (State.reset.withFetchWord 16 0x8128).undef = true := by decide
/-- V-FLOW-31: a faulted core does nothing. -/
theorem test_faulted_step : nextOf (step { State.reset with fault := .stackOverflow }) =
    some { State.reset with fault := .stackOverflow } := by decide

/-! ## Registers and arithmetic -/

/-- V-ALU-2. -/
theorem test_ldImm : (run 0x6FFF State.reset).map (fun t => (t.pc, t.reg 15)) = some (0x202, 0xFF) := by decide
/-- V-ALU-3: wraps, VF not written. -/
theorem test_addImm : (run 0x7A01 (regs [(0xA, 0xFF), (15, 0xAA)])).map (fun t => (t.reg 0xA, t.reg 15)) =
    some (0x00, 0xAA) := by decide
/-- V-ALU-5. -/
theorem test_ldReg : (run 0x8120 (regs [(1, 0x01), (2, 0x5A)])).map (fun t => (t.reg 1, t.reg 2)) = some (0x5A, 0x5A) := by
  decide
/-- V-ALU-6. -/
theorem test_orReg : (run 0x8121 (regs [(1, 0xF0), (2, 0x0F), (15, 0xAA)])).map (fun t => (t.reg 1, t.reg 15)) =
    some (0xFF, 0xAA) := by decide
/-- V-ALU-7. -/
theorem test_andReg : (run 0x8122 (regs [(1, 0xF0), (2, 0x3C), (15, 0xAA)])).map (fun t => (t.reg 1, t.reg 15)) =
    some (0x30, 0xAA) := by decide
/-- V-ALU-8. -/
theorem test_xorReg : (run 0x8123 (regs [(1, 0xF0), (2, 0x3C), (15, 0xAA)])).map (fun t => (t.reg 1, t.reg 15)) =
    some (0xCC, 0xAA) := by decide
/-- V-ALU-10 and V-ALU-17: sums 255 and 256. -/
theorem test_addReg : (run 0x8124 (regs [(1, 0x80), (2, 0x7F), (15, 0xAA)])).map (fun t => (t.reg 1, t.reg 15)) =
    some (0xFF, 0) ∧ (run 0x8124 (regs [(1, 0x80), (2, 0x80)])).map (fun t => (t.reg 1, t.reg 15)) = some (0, 1) := by
  decide
/-- V-ALU-13 and V-ALU-15: X = F, the result wins; Y = F, the old VF is the operand. -/
theorem test_addReg_VF : (run 0x8F14 (regs [(15, 0xFF), (1, 0x01)])).map (fun t => t.reg 15) = some 0 ∧
    (run 0x81F4 (regs [(1, 0x01), (15, 0xFF)])).map (fun t => (t.reg 1, t.reg 15)) = some (0, 1) := by decide
/-- V-ALU-11 and V-ALU-12. -/
theorem test_sub : (run 0x8125 (regs [(1, 0x10), (2, 0x20)])).map (fun t => (t.reg 1, t.reg 15)) = some (0xF0, 0) ∧
    (run 0x8125 (regs [(1, 0x20), (2, 0x20)])).map (fun t => (t.reg 1, t.reg 15)) = some (0, 1) := by decide
/-- V-ALU-14 and V-ALU-23. -/
theorem test_shr : (run 0x8F06 (regs [(15, 0x02)])).map (fun t => t.reg 15) = some 1 ∧
    (run 0x8126 (regs [(1, 0x04), (2, 0xFF)])).map (fun t => (t.reg 1, t.reg 2, t.reg 15)) = some (2, 0xFF, 0) := by decide
/-- V-ALU-24 and V-ALU-33. -/
theorem test_subn : (run 0x8127 (regs [(1, 0x10), (2, 0x20)])).map (fun t => (t.reg 1, t.reg 15)) = some (0x10, 1) ∧
    (run 0x81F7 (regs [(1, 0x05), (15, 0x03)])).map (fun t => (t.reg 1, t.reg 15)) = some (0xFE, 0) := by decide
/-- V-ALU-29 and V-ALU-30. -/
theorem test_shl : (run 0x812E (regs [(1, 0x01), (2, 0xFF)])).map (fun t => (t.reg 1, t.reg 2, t.reg 15)) =
    some (2, 0xFF, 0) ∧ (run 0x8F0E (regs [(15, 0x81)])).map (fun t => t.reg 15) = some 2 := by decide
/-- V-ALU-34. -/
theorem test_rnd : (run 0xC10F { State.reset with rnd := some 0xA7 }).map (fun t => t.reg 1) = some 0x07 := by decide
/-- The move supplies the byte of its own step alone (R37). -/
theorem test_rnd_move : (nextOf (Move.apply (.step 0xA7) (State.reset.withFetchWord 16 0xC10F))).map
    (fun t => (t.reg 1, t.rnd)) = some (0x07, none) := by decide

/-! ## Index register and memory -/

/-- V-IDX-2. -/
theorem test_ldI : (run 0xAFFF (State.reset.setI 0x123)).map State.i = some 0xFFF := by decide
/-- V-IDX-4: wraps, VF not written. -/
theorem test_addI : (run 0xF11E ((regs [(1, 0x01), (15, 0xAA)]).setI 0xFFF)).map (fun t => (t.i, t.reg 15)) =
    some (0, 0xAA) := by decide
/-- V-IDX-7 and V-IDX-8. -/
theorem test_ldF : (run 0xF129 (regs [(1, 0x1A)])).map State.i = some 0x032 ∧
    (run 0xF129 (regs [(1, 0x0F)])).map State.i = some 0x04B := by decide
/-- V-IDX-14: the addresses wrap. -/
theorem test_ldB : (run 0xF133 ((regs [(1, 0x7B)]).setI 0xFFE)).map
    (fun t => (t.byteAt 0xFFE, t.byteAt 0xFFF, t.byteAt 0x000, t.i)) = some (1, 2, 3, 0xFFE) := by decide
/-- V-IDX-15. -/
theorem test_ldMemVx : (run 0xF255 ((regs [(0, 0x11), (1, 0x22), (2, 0x33), (3, 0x44)]).setI 0x400)).map
    (fun t => (t.bytesAt 0x400 4, t.i)) = some ([0x11, 0x22, 0x33, 0x00], 0x400) := by decide
/-- V-IDX-22: the addresses wrap. -/
theorem test_ldVxMem : (run 0xF165 (((regs [(2, 0x77)]).setI 0xFFF).storeBytes 0xFFF [0xAA, 0xBB, 0xCC])).map
    (fun t => (t.reg 0, t.reg 1, t.reg 2, t.i)) = some (0xAA, 0xBB, 0x77, 0xFFF) := by decide
/-- V-IDX-23: the instruction's own bytes. -/
theorem test_ldVxMem_own_bytes : (run 0xF165 (State.reset.setI 0x200)).map (fun t => (t.reg 0, t.reg 1)) =
    some (0xF1, 0x65) := by decide

/-! ## Display -/

/-- V-DRW-1. -/
theorem test_cls : (run 0x00E0 { State.reset with disp := State.reset.disp.set 3 0x00FF000000000000 }).map
    (fun t => (t.disp[3], t.changed)) = some (0, true) := by decide
/-- V-DRW-3: wraps past the right edge and the bottom edge. -/
theorem test_drw_wraps : (run 0xD012 (((regs [(0, 0x3C), (1, 0x1F)]).setI 0x300).storeBytes 0x300 [0xFF, 0x81])).map
    (fun t => (t.disp[0], t.disp[31], t.reg 15, t.changed)) =
    some (0x1000000000000008, 0xF00000000000000F, 0, true) := by decide
/-- V-DRW-8, and V-DRW-10: X = F, the old VF is the column. -/
theorem test_drw_collision :
    (run 0xD011 { (State.reset.setI 0x300).storeBytes 0x300 [0xC0] with
      disp := State.reset.disp.set 0 0x8000000000000000 }).map (fun t => (t.disp[0], t.reg 15)) =
      some (0x4000000000000000, 1) ∧
    (run 0xDF11 (((regs [(15, 0x05)]).setI 0x300).storeBytes 0x300 [0x80])).map (fun t => (t.disp[0], t.reg 15)) =
      some (0x0400000000000000, 0) := by decide

/-! ## Keys and timers -/

/-- V-KEY-2 and V-KEY-3. -/
theorem test_skp : (run 0xE19E { regs [(1, 0x05)] with keysCur := 0xFFDF }).map State.pc = some 0x202 ∧
    (run 0xE19E { regs [(1, 0x1A)] with keysCur := 0x0400 }).map State.pc = some 0x204 := by decide
/-- V-KEY-5 and V-KEY-6. -/
theorem test_sknp : (run 0xE1A1 { regs [(1, 0x05)] with keysCur := 0x0020 }).map State.pc = some 0x202 ∧
    (run 0xE1A1 (regs [(1, 0x05)])).map State.pc = some 0x204 := by decide
/-- V-KEY-7. -/
theorem test_ldVxK : (run 0xF30A { State.reset with keysPrev := 0x0004, keysCur := 0x0024 }).map
    (fun t => (t.pc, t.reg 3)) = some (0x202, 0x05) := by decide
/-- V-KEY-14: the rewind across the wrap, a fixed point. -/
theorem test_ldVxK_waits : run 0xF30A (State.reset.setPc 0xFFF) =
    some ((State.reset.setPc 0xFFF).withFetchWord 16 0xF30A) := by decide
/-- V-KEY-16. -/
theorem test_ldVxDt : (run 0xF107 (State.reset.setDt 0x2A)).map (fun t => (t.reg 1, t.dt)) = some (0x2A, 0x2A) := by decide
/-- V-KEY-17. -/
theorem test_ldDtVx : (run 0xF115 ((regs [(1, 0x3C)]).setDt 0x07)).map State.dt = some 0x3C := by decide
/-- V-KEY-18. -/
theorem test_ldStVx : (run 0xF118 (regs [(1, 0x05)])).map (fun t => (t.st, t.tone)) = some (0x05, true) := by decide

/-! ## Reset, load and the host's operations -/

/-- R280, R283: `State.reset` lists no memory, and reads as the font and zeros. -/
theorem test_reset_bytes : State.reset.bytesAt 0x023 5 = [0xF0, 0x10, 0x20, 0x40, 0x40] ∧
    State.reset.bytesAt 0x04F 2 = [0x80, 0x00] ∧ State.reset.fetchWord = 0x0000 := by decide
/-- Section S1 of 95_test_vectors.md: the launch of `6A02 1200`, and its first step. -/
theorem test_load_and_first_step :
    (match load [0x6A, 0x02, 0x12, 0x00] State.reset with
      | .loaded s => (nextOf (step s)).map fun t => (s.bytesAt 0x200 4, t.pc, t.reg 0xA)
      | .loadError => none) = some ([0x6A, 0x02, 0x12, 0x00], 0x202, 0x02) := by decide
/-- V-HOST-1, V-HOST-2, V-HOST-5. -/
theorem test_tick : (tick { State.reset with dt := 0x01 }).dt = 0 ∧ (tick { State.reset with dt := 0x01 }).st = 0 ∧
    (tick { State.reset with dt := 0xFF, st := 0x02 }).dt = 0xFE ∧
    (tick { State.reset with fault := .stackOverflow, dt := 0x05 }).dt = 0x04 := by decide
/-- V-HOST-6. -/
theorem test_keyUpdate : (keyUpdate 0x0024 { State.reset with keysCur := 0x0004 }).keysPrev = 0x0004 ∧
    (keyUpdate 0x0024 { State.reset with keysCur := 0x0004 }).keysCur = 0x0024 := by decide
theorem test_displayAck : (displayAck { State.reset with changed := true }).changed = false := by decide

/-! ## Witnesses: states and operands that meet the hypotheses of the statements, one theorem a statement -/

/-- A state whose next instruction is the word `w`. -/
def at_ (w : Word) (s : State) : State := s.withFetchWord 16 w.toNat

theorem witness_LoadWritesTheImageOrRejectsIt :
    Memory.wf State.reset.mem = true ∧ (List.replicate 3584 (0 : Byte)).length ≤ 3584 ∧
    (List.replicate 3585 (0 : Byte)).length > 3584 := by
  simp only [List.length_replicate]
  decide

theorem witness_StepRunsTheDecodedInstruction :
    (0x6A02 : Word).toNat = ((at_ 0x6A02 State.reset).byteAt 0x200).toNat * 256 +
      ((at_ 0x6A02 State.reset).byteAt 0x201).toNat ∧
    (at_ 0x6A02 State.reset).fault = .none ∧ decode 0x6A02 = .instr (.ldImm 0xA 0x02) ∧
    (0x0000 : Word).toNat = (State.reset.byteAt 0x200).toNat * 256 + (State.reset.byteAt 0x201).toNat ∧
    State.reset.fault = .none ∧ decode 0x0000 = .nonMatch .familyZero ∧
    { State.reset with fault := .stackOverflow }.fault ≠ .none := by decide

theorem witness_FaultsArePreciseAndStuck :
    (at_ 0x00EE State.reset).fault = .none ∧
    nextOf (step (at_ 0x00EE State.reset)) = some { at_ 0x00EE State.reset with fault := .stackUnderflow } ∧
    { at_ 0x00EE State.reset with fault := .stackUnderflow }.fault ≠ .none := by decide

theorem witness_OnlyFullCallAndEmptyRetFault :
    (at_ 0x2300 { State.reset with sp := 15 }).fault = .none ∧
    (nextOf (step (at_ 0x2300 { State.reset with sp := 15 }))).map State.fault = some .stackOverflow ∧
    (nextOf (step (at_ 0x2300 { State.reset with sp := 14 }))).map State.fault = some .none ∧
    (nextOf (step (at_ 0x00EE State.reset))).map State.fault = some .stackUnderflow ∧
    (nextOf (step (at_ 0x00EE { State.reset with sp := 1 }))).map State.fault = some .none := by decide

theorem witness_FaultOutlivesEverySchedule :
    { State.reset with fault := .stackOverflow, dt := 5 }.fault ≠ .none ∧
    nextOf (runMoves [.step 7, .tick, .keyUpdate 3, .displayRead, .displayAck]
      { State.reset with fault := .stackOverflow, dt := 5 }) =
      some { State.reset with fault := .stackOverflow, dt := 4, keysCur := 3 } := by decide

theorem witness_DecodeAndEncodeAgree : decode 0x5AB7 = .instr (.seReg 0xA 0xB 7) := by decide

theorem witness_DecodeFollowsTheOpcodeTable :
    (⟨14, 0xF00F, 0x8004⟩ : OpRow) ∈ opcodeTable ∧ (⟨14, 0xF00F, 0x8004⟩ : OpRow).selects 0x8AB4 = true ∧
    decode 0x8AB4 = .instr (.addReg 0xA 0xB) := by decide

theorem witness_NonMatchIsANoOperation : (at_ 0xF1FF State.reset).undef = true := by decide

theorem witness_CallPushesOrOverflows :
    { State.reset with sp := 14 }.sp ≠ 15 ∧ { State.reset with sp := 15 }.sp = 15 := by decide

theorem witness_RetPopsOrUnderflows : { State.reset with sp := 1 }.sp ≠ 0 ∧ State.reset.sp = 0 := by decide

/-- S7 of 95_test_vectors.md: `2300` at 200 and `00EE` at 300; and with the stack all but full. -/
theorem witness_CallThenRetComesBack :
    let s := at_ 0x2300 { State.reset.storeBytes 0x300 [0x00, 0xEE] with sp := 14 }
    s.fault = .none ∧ s.sp ≠ 15 ∧ decode s.fetchWord = .instr (.call 0x300) ∧
    decode { s with pc := 0x300 }.fetchWord = .instr .ret := by decide

theorem witness_FlagWritersBesideVF : (14 : Reg) ≠ 15 ∧ (0 : Reg) ≠ 15 := by decide

theorem witness_RndAloneReadsTheRandomByte : ∀ x nn, Instr.cls ≠ .rnd x nn := by
  intro x nn h
  cases h

theorem witness_RndWithoutASuppliedByteRunsOnAFreeOne : State.reset.rnd = none := by decide

theorem witness_StoresReadBackInACanonicalMemory :
    Memory.wf State.reset.mem = true ∧ Memory.wf (State.reset.storeBytes 0xFFF [0xAA, 0xBB]).mem = true := by decide

theorem witness_BulkTransferRegisters :
    (0 : Reg) ≤ 0 ∧ (15 : Reg) ≤ 15 ∧ (14 : Reg) < 15 ∧
    (∀ k : Reg, k ≤ 1 → (0x001 : Addr) ≠ (State.reset.setI 0xFFF).ea k.val) := by decide

/-- The first two registers over both bytes of the next instruction; and the last register over its high byte, the
bytes before it over the running instruction. -/
theorem witness_StoredWordIsFetchedNext_bulk :
    (let s := at_ 0xF155 ((regs [(0, 0x6A), (1, 0x02)]).setI 0x202)
     Memory.wf s.mem = true ∧ s.fault = .none ∧ decode s.fetchWord = .instr (.ldMemVx 1) ∧
     s.ea 0 = s.pc + 2 ∧ s.ea 1 = s.pc + 3 ∧ (nextOf (step s)).map State.fetchWord = some 0x6A02) ∧
    (let s := at_ 0xFF55 ((regs [(15, 0x12)]).setI 0x1F3)
     Memory.wf s.mem = true ∧ s.fault = .none ∧ decode s.fetchWord = .instr (.ldMemVx 15) ∧ s.ea 15 = s.pc + 2 ∧
     (nextOf (step s)).map State.fetchWord = some 0x1200) := by decide

/-- 254 at I: the tens and the ones over the next instruction; then the hundreds over its low byte. -/
theorem witness_StoredWordIsFetchedNext_bcd :
    (let s := at_ 0xF333 ((regs [(3, 254)]).setI 0x201)
     Memory.wf s.mem = true ∧ s.fault = .none ∧ decode s.fetchWord = .instr (.ldB 3) ∧
     s.ea 1 = s.pc + 2 ∧ s.ea 2 = s.pc + 3 ∧ (nextOf (step s)).map State.fetchWord = some 0x0504) ∧
    (let s := at_ 0xF333 ((regs [(3, 254)]).setI 0x203)
     decode s.fetchWord = .instr (.ldB 3) ∧ s.ea 0 = s.pc + 3 ∧
     (nextOf (step s)).map State.fetchWord = some 0x0002) := by decide

theorem witness_CanonicalMemoriesReadingAlikeAreEqual :
    Memory.wf (State.reset.storeBytes 0x300 [1, 2]).mem = true ∧
    Memory.wf ((State.reset.storeBytes 0x301 [2]).storeBytes 0x300 [1]).mem = true ∧
    (State.reset.storeBytes 0x300 [1, 2]).mem = ((State.reset.storeBytes 0x301 [2]).storeBytes 0x300 [1]).mem := by
  decide

/-- A sprite 1 falls on a lit pixel at the corner: the premise of a collision; on a blank display none does. -/
theorem witness_DrwXorsTheSpritePixelByPixel :
    let s := { State.reset.storeBytes 0x000 [0x80] with disp := State.reset.disp.set 0 0x8000000000000000 }
    (∃ row col, s.pixel row col = true ∧ s.SpriteAt 0 1 1 row col) ∧
    (¬ ∃ row col, State.reset.pixel row col = true ∧ State.reset.SpriteAt 0 1 1 row col) := by
  refine ⟨⟨0, 0, by decide, 0, 0, by decide, by decide, by decide, by decide, by decide⟩, ?_⟩
  rintro ⟨row, col, h, _⟩
  simp [State.pixel, State.reset] at h

theorem witness_DrawingTwiceRestoresTheDisplay : (0 : Reg) ≠ 15 ∧ (14 : Reg) ≠ 15 := by decide

/-- V-KEY-9: edges on keys 7 and 9; and no edge, with key 2 held. -/
theorem witness_KeyReadTakesTheLowestEdgeOrRetries :
    let s := { State.reset with keysCur := 0x0280 }
    let u := { State.reset with keysCur := 0x0004, keysPrev := 0x0004 }
    s.RisingEdge 7 ∧ (∀ j, j < 7 → ¬ s.RisingEdge j) ∧ (∀ k, ¬ u.RisingEdge k) := by
  simp only [State.RisingEdge]
  decide

theorem witness_KeyReadWaitsForAKeyUpdate :
    let s := at_ 0xF30A { State.reset with dt := 2, keysCur := 0x0004, keysPrev := 0x0004 }
    s.fault = .none ∧ decode s.fetchWord = .instr (.ldVxK 3) ∧
    (∀ k : Fin 16, ¬ (s.keysCur.getLsbD k.val = true ∧ s.keysPrev.getLsbD k.val = false)) ∧
    nextOf (runMoves [.step 0, .tick, .displayAck, .step 9] s) = some { s with dt := 1 } := by decide

theorem witness_KeyReadWaitsSchedule : ∀ m ∈ [Move.step 0, .tick, .displayAck, .step 9], ∀ keys, m ≠ .keyUpdate keys := by
  intro m hm keys
  simp only [List.mem_cons, List.not_mem_nil, or_false] at hm
  rcases hm with rfl | rfl | rfl | rfl <;> simp

/-- Each of the four conditions on the instruction is met by some form. -/
theorem witness_SoundTimerAndChangedAreNeverRead :
    (∃ x, Instr.ldStVx 0xF = .ldStVx x) ∧ (¬ ∃ x, Instr.cls = .ldStVx x) ∧
    (∃ x y n, Instr.drw 1 2 0 = .drw x y n) ∧ (¬ (Instr.ret = .cls ∨ ∃ x y n, Instr.ret = .drw x y n)) := by
  refine ⟨⟨_, rfl⟩, ?_, ⟨_, _, _, rfl⟩, ?_⟩ <;> simp

theorem witness_HostMovesNeverRedirectTheProgram : ∀ b, Move.tick ≠ .step b := by
  intro b h
  cases h

/-- V-FLOW-2: parked and finished; B201 with V0 = FF at 300 and an LD Vx, K with no edge are parked only. -/
theorem witness_ParkedStatesAreTheseThree :
    (let s := at_ 0x1200 State.reset
     s.fault = .none ∧ decode s.fetchWord = .instr (.jp s.pc) ∧ nextOf (step s) = some s) ∧
    (let s := at_ 0xB201 ((regs [(0, 0xFF)]).setPc 0x300)
     s.fault = .none ∧ decode s.fetchWord = .instr (.jpV0 0x201) ∧ nextOf (step s) = some s) ∧
    (let s := at_ 0xF30A State.reset
     s.fault = .none ∧ decode s.fetchWord = .instr (.ldVxK 3) ∧ nextOf (step s) = some s) := by decide

/-- The state after an overflow meets the invariant, its fault clause included; and so does the state before it. -/
theorem witness_EveryStepKeepsTheInvariant :
    let s := at_ 0x2200 { State.reset with sp := 15 }
    Invariant s ∧ nextOf (step s) = some { s with fault := .stackOverflow } ∧
    Invariant { s with fault := .stackOverflow } := by
  refine ⟨⟨by decide, by decide, by decide, by decide⟩, by decide, ⟨by decide, by decide, ?_, by decide⟩⟩
  exact fun _ => ⟨by decide, 0x200, by decide⟩

/-- A step and a host operation from a state that meets the invariant. -/
theorem witness_EveryMoveKeepsTheInvariant :
    Invariant (at_ 0x2300 State.reset) ∧
    (nextOf (Move.apply (.step 0xFF) (at_ 0x2300 State.reset))).map State.pc = some 0x300 ∧
    (nextOf (Move.apply (.keyUpdate 0x8000) (at_ 0x2300 State.reset))).map State.keysCur = some 0x8000 := by
  exact ⟨⟨by decide, by decide, by decide, by decide⟩, by decide, by decide⟩

/-- The default FONT as a parameter. -/
def font : Vector Byte 80 := ⟨defaultFont.toArray, rfl⟩

/-- A launch that succeeds, and the state after it and one step: a reachable state. -/
theorem witness_LaunchAndReachable :
    ∃ s t, launch font [0x6A, 0x02, 0x12, 0x00] = .loaded s ∧ runMoves [.step 0] s = .next t ∧ Reachable t ∧
      t.reg 0xA = 0x02 :=
  ⟨_, _, rfl, rfl, ⟨font, [0x6A, 0x02, 0x12, 0x00], _, [.step 0], rfl, rfl⟩, by decide⟩

end Sys2Proof.Tests
end

/-! ## Proofs: the jumps (spec 40_flow.md R121, R129) -/

namespace Sys2Proof.Machine

/-- A control transfer changes `pc` alone (R9). -/
theorem frame_setPc (s : State) (a : Addr) : Frame [.pc] s (s.setPc a) := by
  intro p hp
  cases p with
  | pc => exact absurd List.mem_cons_self hp
  | random => exact ⟨rfl, rfl⟩
  | _ => rfl

/-- A register's value as an address keeps its number: the zero extension loses no bit. -/
theorem State.toNat_regAddr (s : State) (x : Reg) : (s.regAddr x).toNat = (s.reg x).toNat :=
  BitVec.toNat_setWidth_of_le (by decide)

theorem exec_jp (nnn : Addr) (s : State) : exec (.jp nnn) s = .next (s.setPc nnn) := rfl

theorem exec_jpV0 (nnn : Addr) (s : State) : exec (.jpV0 nnn) s = .next (s.setPc (nnn + s.regAddr reg0)) := rfl

/-- Settles O14: both jumps are one `setPc`; the addition of addresses is the sum modulo 4096. -/
theorem jumpsSetThePc : Obligations.JumpsSetThePc := by
  refine ⟨fun s nnn => ⟨s.setPc nnn, exec_jp nnn s, rfl, frame_setPc s nnn⟩,
    fun s nnn => ⟨s.setPc (nnn + s.regAddr reg0), exec_jpV0 nnn s, ?_, frame_setPc s _⟩⟩
  rw [State.setPc_pc, BitVec.toNat_add, s.toNat_regAddr]

end Sys2Proof.Machine

/-! ## Proofs: loads, moves and add immediate (spec 41_alu.md R150 to R152) -/

namespace Sys2Proof.Machine

theorem exec_ldImm (x : Reg) (nn : Byte) (s : State) : exec (.ldImm x nn) s = .next (s.setReg x nn) := rfl

theorem exec_addImm (x : Reg) (nn : Byte) (s : State) : exec (.addImm x nn) s = .next (s.setReg x (s.reg x + nn)) := rfl

theorem exec_ldReg (x y : Reg) (s : State) : exec (.ldReg x y) s = .next (s.setReg x (s.reg y)) := rfl

/-- Settles O21: each of the three is one `setReg`, whose frame is `VX` alone; the addition of bytes is the sum modulo
256. -/
theorem loadsMovesAndAddImmediate : Obligations.LoadsMovesAndAddImmediate := by
  refine ⟨fun s x nn => ⟨s.setReg x nn, exec_ldImm x nn s, s.reg_setReg_same x nn, frame_setReg s x nn⟩,
    fun s x nn => ⟨s.setReg x (s.reg x + nn), exec_addImm x nn s, ?_, frame_setReg s x _⟩,
    fun s x y => ⟨s.setReg x (s.reg y), exec_ldReg x y s, s.reg_setReg_same x _, frame_setReg s x _⟩⟩
  rw [s.reg_setReg_same, BitVec.toNat_add]

end Sys2Proof.Machine

/-! ## Proofs: the key read (spec 44_keys_timers.md R222) -/

namespace Sys2Proof.Machine

theorem exec_ldVxK (x : Reg) (s : State) : exec (.ldVxK x) s = execLdVxK x s := rfl

/-- The edge the machine computes is the edge of the spec. -/
theorem State.keyEdge_eq_true_iff (s : State) (k : Reg) : s.keyEdge k = true ↔ s.RisingEdge k := by
  rw [State.keyEdge, State.RisingEdge, Bool.and_eq_true, Bool.not_eq_true']

theorem State.lowestEdge_eq_none_iff (s : State) : s.lowestEdge = none ↔ ∀ k, ¬ s.RisingEdge k := by
  simp only [s.lowestEdge_none, ← s.keyEdge_eq_true_iff, Bool.not_eq_true]

/-- The search finds a rising edge that has none below it: an edge exists, and the one found is neither above `k`,
where it would not be the lowest, nor below. -/
theorem State.lowestEdge_eq_some {s : State} {k : Reg} (hk : s.RisingEdge k) (hlow : ∀ j, j < k → ¬ s.RisingEdge j) :
    s.lowestEdge = some k := by
  cases h : s.lowestEdge with
  | none => exact absurd hk (s.lowestEdge_eq_none_iff.mp h k)
  | some j =>
    obtain ⟨hj, hbelow⟩ := s.lowestEdge_some h
    rcases lt_trichotomy j k with hlt | rfl | hgt
    · exact absurd ((s.keyEdge_eq_true_iff j).mp hj) (hlow j hlt)
    · rfl
    · exact absurd ((s.keyEdge_eq_true_iff k).mpr hk) (by simp [hbelow k hgt])

/-- A key's number fits a register: no bit is lost. -/
theorem toNat_keyByte (k : Reg) : (BitVec.ofNat 8 k.val).toNat = k.val := by
  rw [BitVec.toNat_ofNat, Nat.mod_eq_of_lt (k.isLt.trans (by decide))]

/-- Settles O38: the lowest edge is what the search finds, and its number goes to `VX` alone; with no edge the search
finds none, and the rewind undoes the fetch. -/
theorem keyReadTakesTheLowestEdgeOrRetries : Obligations.KeyReadTakesTheLowestEdgeOrRetries := by
  refine ⟨fun s x k hk hlow => ⟨s.setReg x (BitVec.ofNat 8 k.val), ?_, ?_, frame_setReg s x _⟩, fun s x hno => ?_⟩
  · rw [exec_ldVxK, execLdVxK_edge (State.lowestEdge_eq_some hk hlow)]
  · rw [s.reg_setReg_same, toNat_keyByte]
  · have hwait : s.advance.lowestEdge = none := s.advance.lowestEdge_eq_none_iff.mpr hno
    show exec (.ldVxK x) s.advance = .next s
    rw [exec_ldVxK, execLdVxK_wait hwait, s.rewind_advance]

end Sys2Proof.Machine

/-! ## Proofs: the key skips (spec 44_keys_timers.md R221, R225, R226) -/

namespace Sys2Proof.Machine

/-- A skip changes `pc` alone, taken or not (R130). -/
theorem frame_skipIf (s : State) (c : Bool) : Frame [.pc] s (s.skipIf c) := by
  cases c with
  | true => exact frame_setPc s _
  | false => exact Frame.refl _ s

/-- A taken skip adds 2 to `pc` modulo 4096, and one not taken adds nothing (R130). -/
theorem State.toNat_skipIf_pc (s : State) (c : Bool) :
    (s.skipIf c).pc.toNat = (s.pc.toNat + if c = true then 2 else 0) % 4096 := by
  rw [State.skipIf_pc]
  cases c with
  | true => exact BitVec.toNat_add s.pc Config.instrBytes
  | false => exact (Nat.mod_eq_of_lt s.pc.isLt).symm

/-- The key a register names is the one numbered by its value modulo 16 (R221). -/
theorem State.keyDown_lowNibble (s : State) (x : Reg) :
    s.keyDown (s.lowNibble x) = s.keysCur.getLsbD ((s.reg x).toNat % 16) := by
  have hval : (s.lowNibble x).val = (s.reg x).toNat % 16 := BitVec.toNat_setWidth 4 (s.reg x)
  rw [State.keyDown, hval]

theorem exec_skp (x : Reg) (s : State) : exec (.skp x) s = .next (s.skipIf (s.keyDown (s.lowNibble x))) := rfl

theorem exec_sknp (x : Reg) (s : State) : exec (.sknp x) s = .next (s.skipIf (!s.keyDown (s.lowNibble x))) := rfl

/-- Settles O19: both are one `skipIf`, on the key's state and on its negation. -/
theorem keySkipsTestTheLowNibblesKey : Obligations.KeySkipsTestTheLowNibblesKey := by
  refine ⟨fun s x => ⟨_, exec_skp x s, ?_, frame_skipIf s _⟩, fun s x => ⟨_, exec_sknp x s, ?_, frame_skipIf s _⟩⟩
  · rw [s.toNat_skipIf_pc, s.keyDown_lowNibble]
  · simp only [s.toNat_skipIf_pc, s.keyDown_lowNibble, Bool.not_eq_true']

end Sys2Proof.Machine

/-! ## Proofs: the load (spec 70_reset_and_hazards.md R284) -/

namespace Sys2Proof.Machine

/-- An image that fits is one store at the load base. -/
theorem load_of_le {rom : List Byte} (s : State) (h : rom.length ≤ Config.romMax) :
    load rom s = .loaded (s.storeBytes Config.loadBase rom) :=
  if_neg (Nat.not_lt.mpr h)

/-- An image over the maximum is rejected whole: the answer holds no state. -/
theorem load_of_gt {rom : List Byte} (s : State) (h : rom.length > Config.romMax) : load rom s = .loadError :=
  if_pos h

/-- Settles O3: an image that fits is one store, short enough not to wrap onto itself, so its bytes read back and
nothing else changes; a longer one is rejected. -/
theorem loadWritesTheImageOrRejectsIt : Obligations.LoadWritesTheImageOrRejectsIt := by
  refine fun rom s hm => ⟨fun hle => ?_, load_of_gt s⟩
  have hfits : rom.length ≤ Config.memSize := hle.trans (by decide)
  exact ⟨s.storeBytes Config.loadBase rom, load_of_le s hle,
    fun k hk => s.byteAt_storeBytes Config.loadBase rom k hk hm hfits, frame_storeBytes s Config.loadBase rom⟩

end Sys2Proof.Machine

/-! ## Proofs: decoding and encoding (spec 30_encoding.md R91 to R99) -/

namespace Sys2Proof

/-- Decoding the word of an instruction: its family and its selector, read back from its format, choose its arm of the
decoder, and the fields read back are its operands. -/
theorem decode_encode (i : Instr) : decode (encode i) = .instr i := by
  cases i
  case cls | ret => rfl
  all_goals simp [encode, decode, decodeAlu, decodeKey, decodeMisc]

/-- A word of a known family is that family's word of format ADDR. -/
theorem formAddr_of_family {w : Word} {f : BitVec 4} (hf : w.family = f) : formAddr f w.fieldNNN = w := by
  rw [← hf, formAddr_fields]

/-- A word of a known family is that family's word of format REG_IMM. -/
theorem formRegImm_of_family {w : Word} {f : BitVec 4} (hf : w.family = f) : formRegImm f w.fieldX w.fieldNN = w := by
  rw [← hf, formRegImm_fields]

/-- A word of a known family is that family's word of format REG_REG. -/
theorem formRegReg_of_family {w : Word} {f : BitVec 4} (hf : w.family = f) :
    formRegReg f w.fieldX w.fieldY w.fieldN = w := by
  rw [← hf, formRegReg_fields]

/-- A word of a known family and low byte has no other bits than these and X. -/
theorem formRegImm_of_selector {w : Word} {f : BitVec 4} {nn : Byte} (hf : w.family = f) (hn : w.fieldNN = nn) :
    formRegImm f w.fieldX nn = w := by
  rw [← hn, formRegImm_of_family hf]

/-- A word of a known family and low nibble has no other bits than these, X and Y. -/
theorem formRegReg_of_selector {w : Word} {f n : BitVec 4} (hf : w.family = f) (hn : w.fieldN = n) :
    formRegReg f w.fieldX w.fieldY n = w := by
  rw [← hn, formRegReg_of_family hf]

theorem encode_of_decodeZero {w : Word} {i : Instr} (h : decodeZero w = .instr i) : encode i = w := by
  unfold decodeZero at h
  split_ifs at h with hw hw <;> cases h <;> exact hw.symm

theorem encode_of_decodeAlu {w : Word} {i : Instr} (hf : w.family = 0x8) (h : decodeAlu w = .instr i) :
    encode i = w := by
  unfold decodeAlu at h
  split_ifs at h with hn hn hn hn hn hn hn hn hn <;> cases h <;> exact formRegReg_of_selector hf hn

theorem encode_of_decodeKey {w : Word} {i : Instr} (hf : w.family = 0xE) (h : decodeKey w = .instr i) :
    encode i = w := by
  unfold decodeKey at h
  split_ifs at h with hn hn <;> cases h <;> exact formRegImm_of_selector hf hn

theorem encode_of_decodeMisc {w : Word} {i : Instr} (hf : w.family = 0xF) (h : decodeMisc w = .instr i) :
    encode i = w := by
  unfold decodeMisc at h
  split_ifs at h with hn hn hn hn hn hn hn hn hn <;> cases h <;> exact formRegImm_of_selector hf hn

/-- A word that selects an instruction is its word: the fields and the selector are all its bits. -/
theorem encode_of_decode {w : Word} {i : Instr} (h : decode w = .instr i) : encode i = w := by
  unfold decode at h
  split at h
  case h_1 => exact encode_of_decodeZero h
  case h_9 hf => exact encode_of_decodeAlu hf h
  case h_15 hf => exact encode_of_decodeKey hf h
  case h_16 =>
    have hf : w.family = 0xF := by generalize w.family = f at *; revert f; decide
    exact encode_of_decodeMisc hf h
  case h_2 hf | h_3 hf | h_11 hf | h_12 hf => cases h; exact formAddr_of_family hf
  case h_4 hf | h_5 hf | h_7 hf | h_8 hf | h_13 hf => cases h; exact formRegImm_of_family hf
  case h_6 hf | h_10 hf | h_14 hf => cases h; exact formRegReg_of_family hf

/-- Settles O9: one direction reads back the fields of each format, the other puts the fields of a word together. -/
theorem decodeAndEncodeAgree : Obligations.DecodeAndEncodeAgree :=
  ⟨decode_encode, fun _ _ h => encode_of_decode h⟩

/-! ### The words that select nothing -/

theorem Word.toNat_family (w : Word) : w.family.toNat = w.toNat / 4096 := by
  have := w.isLt
  rw [Word.family, toNat_slice]
  omega

theorem Word.toNat_fieldN (w : Word) : w.fieldN.toNat = w.toNat % 16 := by
  rw [Word.fieldN, toNat_slice]
  omega

theorem Word.toNat_fieldNN (w : Word) : w.fieldNN.toNat = w.toNat % 256 := by
  rw [Word.fieldNN, toNat_slice]
  omega

theorem decodeZero_nonMatch_iff (w : Word) :
    (∃ why, decodeZero w = .nonMatch why) ↔ w ≠ 0x00E0 ∧ w ≠ 0x00EE := by
  unfold decodeZero
  split_ifs <;> simp_all

theorem decodeAlu_nonMatch_iff (w : Word) :
    (∃ why, decodeAlu w = .nonMatch why) ↔ w.toNat % 16 ∈ [0x8, 0x9, 0xA, 0xB, 0xC, 0xD, 0xF] := by
  rw [← w.toNat_fieldN]
  have hall : ∀ n : BitVec 4, n.toNat ∈ [0x8, 0x9, 0xA, 0xB, 0xC, 0xD, 0xF] ↔
      n ∉ [0x0, 0x1, 0x2, 0x3, 0x4, 0x5, 0x6, 0x7, 0xE] := by decide
  rw [hall]
  unfold decodeAlu
  split_ifs <;> simp_all

theorem decodeKey_nonMatch_iff (w : Word) :
    (∃ why, decodeKey w = .nonMatch why) ↔ w.toNat % 256 ∉ [0x9E, 0xA1] := by
  rw [← w.toNat_fieldNN]
  unfold decodeKey
  split_ifs <;> simp_all [BitVec.toNat_eq]

theorem decodeMisc_nonMatch_iff (w : Word) :
    (∃ why, decodeMisc w = .nonMatch why) ↔
      w.toNat % 256 ∉ [0x07, 0x0A, 0x15, 0x18, 0x1E, 0x29, 0x33, 0x55, 0x65] := by
  rw [← w.toNat_fieldNN]
  unfold decodeMisc
  split_ifs <;> simp_all [BitVec.toNat_eq]

/-- Settles O11: families 0, 8, E and F ask their selector, and every other family selects an instruction. -/
theorem nonMatchWordsAreExactlyThese : Obligations.NonMatchWordsAreExactlyThese := by
  intro w
  rw [← w.toNat_family]
  unfold decode
  split
  case h_1 hf => simp [hf, decodeZero_nonMatch_iff]
  case h_9 hf => simp [hf, decodeAlu_nonMatch_iff]
  case h_15 hf => simp [hf, decodeKey_nonMatch_iff]
  case h_16 =>
    have hf : w.family = 0xF := by generalize w.family = f at *; revert f; decide
    simp [hf, decodeMisc_nonMatch_iff]
  all_goals simp [*]

end Sys2Proof

/-! ## Proofs: the opcode table (spec 30_encoding.md R95, R96) -/

namespace Sys2Proof

open Laws.EncodedRow

/-- The mask F000 shows the family. -/
theorem family_of_mask {w b : Word} (h : w &&& 0xF000 = b) : w.family = b.family := by
  rw [← formRegReg_fields w, maskFamily_formRegReg] at h
  rw [← h, family_formRegReg]

/-- The mask F00F shows the family and the low nibble. -/
theorem family_fieldN_of_mask {w b : Word} (h : w &&& 0xF00F = b) : w.family = b.family ∧ w.fieldN = b.fieldN := by
  rw [← formRegReg_fields w, maskNibble_formRegReg] at h
  rw [← h, family_formRegReg, fieldN_formRegReg]
  exact ⟨rfl, rfl⟩

/-- The mask F0FF shows the family and the low byte. -/
theorem family_fieldNN_of_mask {w b : Word} (h : w &&& 0xF0FF = b) : w.family = b.family ∧ w.fieldNN = b.fieldNN := by
  rw [← formRegImm_fields w, maskByte_formRegImm] at h
  rw [← h, family_formRegImm, fieldNN_formRegImm]
  exact ⟨rfl, rfl⟩

/-- The word is the word of an instruction of the row. -/
def OpRow.HasWord (r : OpRow) (w : Word) : Prop := ∃ i, encode i = w ∧ i.row = r.num

/-- A word that a row with the mask F00F selects is the word of the row's instruction. -/
theorem OpRow.hasWord_of_nibble {w : Word} {k : Nat} {b : Word} {mk : Reg → Reg → Instr}
    (h : (⟨k, 0xF00F, b⟩ : OpRow).selects w = true)
    (henc : ∀ x y, encode (mk x y) = formRegReg b.family x y b.fieldN) (hrow : ∀ x y, (mk x y).row = k) :
    (⟨k, 0xF00F, b⟩ : OpRow).HasWord w := by
  obtain ⟨hf, hn⟩ := family_fieldN_of_mask (of_decide_eq_true h)
  exact ⟨mk w.fieldX w.fieldY, (henc _ _).trans (formRegReg_of_selector hf hn), hrow _ _⟩

/-- A word that a row with the mask F0FF selects is the word of the row's instruction. -/
theorem OpRow.hasWord_of_byte {w : Word} {k : Nat} {b : Word} {mk : Reg → Instr}
    (h : (⟨k, 0xF0FF, b⟩ : OpRow).selects w = true)
    (henc : ∀ x, encode (mk x) = formRegImm b.family x b.fieldNN) (hrow : ∀ x, (mk x).row = k) :
    (⟨k, 0xF0FF, b⟩ : OpRow).HasWord w := by
  obtain ⟨hf, hn⟩ := family_fieldNN_of_mask (of_decide_eq_true h)
  exact ⟨mk w.fieldX, (henc _).trans (formRegImm_of_selector hf hn), hrow _⟩

theorem hasWord_opRowsLow (w : Word) : ∀ r ∈ opRowsLow, r.selects w = true → r.HasWord w := by
  have family {r : OpRow} (hm : r.mask = 0xF000) (h : r.selects w = true) : w.family = r.bits.family :=
    family_of_mask (hm ▸ of_decide_eq_true h)
  simp only [opRowsLow, List.forall_mem_cons]
  refine ⟨fun h => ⟨.cls, ?_, rfl⟩, fun h => ⟨.ret, ?_, rfl⟩,
    fun h => ⟨.jp w.fieldNNN, formAddr_of_family (family rfl h), rfl⟩,
    fun h => ⟨.call w.fieldNNN, formAddr_of_family (family rfl h), rfl⟩,
    fun h => ⟨.seImm w.fieldX w.fieldNN, formRegImm_of_family (family rfl h), rfl⟩,
    fun h => ⟨.sneImm w.fieldX w.fieldNN, formRegImm_of_family (family rfl h), rfl⟩,
    fun h => ⟨.seReg w.fieldX w.fieldY w.fieldN, formRegReg_of_family (family rfl h), rfl⟩,
    fun h => ⟨.ldImm w.fieldX w.fieldNN, formRegImm_of_family (family rfl h), rfl⟩,
    fun h => ⟨.addImm w.fieldX w.fieldNN, formRegImm_of_family (family rfl h), rfl⟩, by simp⟩
  all_goals exact (of_decide_eq_true h).symm.trans BitVec.and_allOnes

theorem hasWord_opRowsAlu (w : Word) : ∀ r ∈ opRowsAlu, r.selects w = true → r.HasWord w := by
  simp only [opRowsAlu, List.forall_mem_cons]
  refine ⟨fun h => OpRow.hasWord_of_nibble (mk := .ldReg) h ?_ ?_,
    fun h => OpRow.hasWord_of_nibble (mk := .orReg) h ?_ ?_,
    fun h => OpRow.hasWord_of_nibble (mk := .andReg) h ?_ ?_,
    fun h => OpRow.hasWord_of_nibble (mk := .xorReg) h ?_ ?_,
    fun h => OpRow.hasWord_of_nibble (mk := .addReg) h ?_ ?_,
    fun h => OpRow.hasWord_of_nibble (mk := .sub) h ?_ ?_,
    fun h => OpRow.hasWord_of_nibble (mk := .shr) h ?_ ?_,
    fun h => OpRow.hasWord_of_nibble (mk := .subn) h ?_ ?_,
    fun h => OpRow.hasWord_of_nibble (mk := .shl) h ?_ ?_, by simp⟩
  all_goals exact fun _ _ => rfl

theorem hasWord_opRowsHigh (w : Word) : ∀ r ∈ opRowsHigh, r.selects w = true → r.HasWord w := by
  have family {r : OpRow} (hm : r.mask = 0xF000) (h : r.selects w = true) : w.family = r.bits.family :=
    family_of_mask (hm ▸ of_decide_eq_true h)
  simp only [opRowsHigh, List.forall_mem_cons]
  refine ⟨fun h => ⟨.sneReg w.fieldX w.fieldY w.fieldN, formRegReg_of_family (family rfl h), rfl⟩,
    fun h => ⟨.ldI w.fieldNNN, formAddr_of_family (family rfl h), rfl⟩,
    fun h => ⟨.jpV0 w.fieldNNN, formAddr_of_family (family rfl h), rfl⟩,
    fun h => ⟨.rnd w.fieldX w.fieldNN, formRegImm_of_family (family rfl h), rfl⟩,
    fun h => ⟨.drw w.fieldX w.fieldY w.fieldN, formRegReg_of_family (family rfl h), rfl⟩,
    fun h => OpRow.hasWord_of_byte (mk := .skp) h ?_ ?_,
    fun h => OpRow.hasWord_of_byte (mk := .sknp) h ?_ ?_,
    fun h => OpRow.hasWord_of_byte (mk := .ldVxDt) h ?_ ?_,
    fun h => OpRow.hasWord_of_byte (mk := .ldVxK) h ?_ ?_,
    fun h => OpRow.hasWord_of_byte (mk := .ldDtVx) h ?_ ?_,
    fun h => OpRow.hasWord_of_byte (mk := .ldStVx) h ?_ ?_,
    fun h => OpRow.hasWord_of_byte (mk := .addI) h ?_ ?_,
    fun h => OpRow.hasWord_of_byte (mk := .ldF) h ?_ ?_,
    fun h => OpRow.hasWord_of_byte (mk := .ldB) h ?_ ?_,
    fun h => OpRow.hasWord_of_byte (mk := .ldMemVx) h ?_ ?_,
    fun h => OpRow.hasWord_of_byte (mk := .ldVxMem) h ?_ ?_, by simp⟩
  all_goals exact fun _ => rfl

/-- A word that a row selects is the word of an instruction of that row. -/
theorem hasWord_of_selects {r : OpRow} (hr : r ∈ opcodeTable) {w : Word} (h : r.selects w = true) : r.HasWord w := by
  rw [opcodeTable, List.mem_append, List.mem_append] at hr
  obtain (hr | hr) | hr := hr
  · exact hasWord_opRowsLow w r hr h
  · exact hasWord_opRowsAlu w r hr h
  · exact hasWord_opRowsHigh w r hr h

/-- Two rows select no common word unless they agree where both masks look, and no two different rows do. -/
theorem opRow_eq_of_selects {w : Word} {r r' : OpRow} (hr : r ∈ opcodeTable) (hr' : r' ∈ opcodeTable)
    (h : r.selects w = true) (h' : r'.selects w = true) : r = r' := by
  have hdisjoint : ∀ r ∈ opcodeTable, ∀ r' ∈ opcodeTable, r.bits &&& r'.mask = r'.bits &&& r.mask → r = r' := by
    decide
  refine hdisjoint r hr r' hr' ?_
  rw [← of_decide_eq_true h, ← of_decide_eq_true h', BitVec.and_assoc, BitVec.and_comm r.mask, ← BitVec.and_assoc]

/-- Every instruction's word selects the row of its number. -/
theorem encodedRow (i : Instr) : Statement i := by
  cases i with
  | cls => exact cls
  | ret => exact ret
  | jp nnn => exact jp nnn
  | call nnn => exact call nnn
  | seImm x nn => exact seImm x nn
  | sneImm x nn => exact sneImm x nn
  | seReg x y n => exact seReg x y n
  | ldImm x nn => exact ldImm x nn
  | addImm x nn => exact addImm x nn
  | ldReg x y => exact ldReg x y
  | orReg x y => exact orReg x y
  | andReg x y => exact andReg x y
  | xorReg x y => exact xorReg x y
  | addReg x y => exact addReg x y
  | sub x y => exact sub x y
  | shr x y => exact shr x y
  | subn x y => exact subn x y
  | shl x y => exact shl x y
  | sneReg x y n => exact sneReg x y n
  | ldI nnn => exact ldI nnn
  | jpV0 nnn => exact jpV0 nnn
  | rnd x nn => exact rnd x nn
  | drw x y n => exact drw x y n
  | skp x => exact skp x
  | sknp x => exact sknp x
  | ldVxDt x => exact ldVxDt x
  | ldVxK x => exact ldVxK x
  | ldDtVx x => exact ldDtVx x
  | ldStVx x => exact ldStVx x
  | addI x => exact addI x
  | ldF x => exact ldF x
  | ldB x => exact ldB x
  | ldMemVx x => exact ldMemVx x
  | ldVxMem x => exact ldVxMem x

/-- Settles O10: a word that decodes is its instruction's word, which selects that instruction's row; a word a row
selects is the word of an instruction of the row, which decoding gives back. -/
theorem decodeFollowsTheOpcodeTable : Obligations.DecodeFollowsTheOpcodeTable := by
  refine ⟨rfl, fun w r hr r' hr' => opRow_eq_of_selects hr hr', fun w i hd => ?_, fun w r hr h => ?_⟩
  · obtain ⟨r, hr, hnum, hsel⟩ := encodedRow i
    exact ⟨r, List.mem_of_getElem? hr, hnum, encode_of_decode hd ▸ hsel⟩
  · obtain ⟨i, rfl, hrow⟩ := hasWord_of_selects hr h
    exact ⟨i, decode_encode i, hrow⟩

/-- Settles O13: the thirteen words, decoded. -/
theorem writtenOutWordsDecode : Obligations.WrittenOutWordsDecode := by
  unfold Obligations.WrittenOutWordsDecode
  decide

end Sys2Proof

/-! ## Proofs: what each instruction answers, and the frames of the state's updates -/

namespace Sys2Proof.Machine

section Answers

variable (x y : Reg) (n : BitVec 4) (nn : Byte) (nnn : Addr) (s : State)

theorem exec_cls : exec .cls s = .next s.clearDisplay := rfl

theorem exec_ret : exec .ret s = execRet s := rfl

theorem exec_call : exec (.call nnn) s = execCall nnn s := rfl

theorem exec_seImm : exec (.seImm x nn) s = .next (s.skipIf (s.reg x == nn)) := rfl

theorem exec_sneImm : exec (.sneImm x nn) s = .next (s.skipIf (s.reg x != nn)) := rfl

theorem exec_seReg : exec (.seReg x y n) s = .next (s.skipIf (s.reg x == s.reg y)) := rfl

theorem exec_sneReg : exec (.sneReg x y n) s = .next (s.skipIf (s.reg x != s.reg y)) := rfl

theorem exec_orReg : exec (.orReg x y) s = .next (s.setReg x (s.reg x ||| s.reg y)) := rfl

theorem exec_andReg : exec (.andReg x y) s = .next (s.setReg x (s.reg x &&& s.reg y)) := rfl

theorem exec_xorReg : exec (.xorReg x y) s = .next (s.setReg x (s.reg x ^^^ s.reg y)) := rfl

theorem exec_addReg :
    exec (.addReg x y) s = .next (s.setFlagThenReg x (carryOut (s.reg x) (s.reg y)) (s.reg x + s.reg y)) := rfl

theorem exec_sub :
    exec (.sub x y) s = .next (s.setFlagThenReg x (noBorrow (s.reg x) (s.reg y)) (s.reg x - s.reg y)) := rfl

theorem exec_shr : exec (.shr x y) s = .next (s.setFlagThenReg x (lowBit (s.reg x)) (s.reg x >>> 1)) := rfl

theorem exec_subn :
    exec (.subn x y) s = .next (s.setFlagThenReg x (noBorrow (s.reg y) (s.reg x)) (s.reg y - s.reg x)) := rfl

theorem exec_shl : exec (.shl x y) s = .next (s.setFlagThenReg x (highBit (s.reg x)) (s.reg x <<< 1)) := rfl

theorem exec_ldI : exec (.ldI nnn) s = .next (s.setI nnn) := rfl

theorem exec_rnd : exec (.rnd x nn) s = .next (s.drawn.setReg x (s.rndByte &&& nn)) := rfl

theorem exec_ldVxDt : exec (.ldVxDt x) s = .next (s.setReg x s.dt) := rfl

theorem exec_ldDtVx : exec (.ldDtVx x) s = .next (s.setDt (s.reg x)) := rfl

theorem exec_ldStVx : exec (.ldStVx x) s = .next (s.setSt (s.reg x)) := rfl

theorem exec_addI : exec (.addI x) s = .next (s.setI (s.i + s.regAddr x)) := rfl

theorem exec_ldF : exec (.ldF x) s = .next (s.setI (glyphAddr (s.lowNibble x))) := rfl

theorem exec_ldB : exec (.ldB x) s = .next (s.storeBytes s.i (bcdDigits (s.reg x))) := rfl

theorem exec_ldMemVx : exec (.ldMemVx x) s = .next (s.storeBytes s.i (s.regsUpTo x)) := rfl

theorem exec_ldVxMem : exec (.ldVxMem x) s = .next (s.loadRegs x) := rfl

end Answers

/-- An outcome is one state at most. -/
theorem eq_of_next {o : Host.Outcome State Fault Refusal} {t u : State} (h : o = .next t) (h' : o = .next u) : t = u :=
  Host.Outcome.next.inj (h.symm.trans h')

/-- RET raises the fault or pops (R123, R246). -/
theorem exec_ret_cases {s t : State} (h : exec .ret s = .next t) :
    (s.sp = 0 ∧ t = s.raise .stackUnderflow) ∨ (s.sp ≠ 0 ∧ t = s.pop) := by
  by_cases hsp : s.sp = 0
  · exact .inl ⟨hsp, eq_of_next h (execRet_empty hsp)⟩
  · exact .inr ⟨hsp, eq_of_next h (execRet_pop hsp)⟩

/-- CALL raises the fault, or pushes and jumps (R122, R245). -/
theorem exec_call_cases {nnn : Addr} {s t : State} (h : exec (.call nnn) s = .next t) :
    (s.sp = 15 ∧ t = s.raise .stackOverflow) ∨ (s.sp ≠ 15 ∧ t = (s.push s.pc).setPc nnn) := by
  by_cases hsp : s.sp = 15
  · exact .inl ⟨hsp, eq_of_next h (execCall_full hsp nnn)⟩
  · exact .inr ⟨hsp, eq_of_next h (execCall_push hsp nnn)⟩

/-- LD Vx, K goes back to its own address or takes the lowest edge (R222). -/
theorem exec_ldVxK_cases {x : Reg} {s t : State} (h : exec (.ldVxK x) s = .next t) :
    (s.lowestEdge = none ∧ t = s.rewind) ∨ ∃ k, s.lowestEdge = some k ∧ t = s.setReg x (BitVec.ofNat 8 k.val) := by
  cases hk : s.lowestEdge with
  | none => exact .inl ⟨rfl, eq_of_next h (execLdVxK_wait hk x)⟩
  | some k => exact .inr ⟨k, rfl, eq_of_next h (execLdVxK_edge hk x)⟩

theorem frame_setI (s : State) (a : Addr) : Frame [.i] s (s.setI a) := by
  intro p hp
  cases p with
  | i => exact absurd List.mem_cons_self hp
  | _ => simp [Part.same]

theorem frame_setDt (s : State) (b : Byte) : Frame [.dt] s (s.setDt b) := by
  intro p hp
  cases p with
  | dt => exact absurd List.mem_cons_self hp
  | _ => simp [Part.same]

theorem frame_setSt (s : State) (b : Byte) : Frame [.st] s (s.setSt b) := by
  intro p hp
  cases p with
  | st => exact absurd List.mem_cons_self hp
  | _ => simp [Part.same]

/-- A draw uses up the supplied byte and counts, and changes no part of the machine (log entry 2). -/
theorem frame_drawn (s : State) : Frame [.random] s s.drawn := by
  intro p hp
  cases p with
  | random => exact absurd List.mem_cons_self hp
  | _ => simp [Part.same]

/-- Raising a fault writes `fault`, and `pc` goes back (R247). -/
theorem frame_raise (s : State) (f : FaultCode) : Frame [.pc, .fault] s (s.raise f) := by
  intro p hp
  cases p with
  | pc | fault => simp at hp
  | _ => simp [Part.same]

theorem frame_pop (s : State) : Frame [.pc, .sp] s s.pop := by
  intro p hp
  cases p with
  | pc | sp => simp at hp
  | _ => simp [Part.same]

/-- A push changes `sp` and the slot above it alone (R122). -/
theorem frame_push (s : State) (a : Addr) : Frame [.sp, .stack (s.sp + 1).toFin] s (s.push a) := by
  intro p hp
  cases p with
  | sp => simp at hp
  | stack k => exact s.stack_push_other a fun e => hp (by simp [e])
  | _ => simp [Part.same]

/-- A CALL with room on the stack changes `pc`, `sp` and the slot pushed alone (R122). -/
theorem frame_push_setPc (s : State) (nnn : Addr) :
    Frame [.pc, .sp, .stack (s.sp + 1).toFin] s ((s.push s.pc).setPc nnn) :=
  Frame.trans (Frame.mono (by simp) (frame_push s s.pc)) (Frame.mono (by simp) (frame_setPc (s.push s.pc) nnn))

/-- RND writes its register and the model's two fields for the random input alone (R164). -/
theorem frame_drawn_setReg (s : State) (x : Reg) (b : Byte) : Frame [.v x, .random] s (s.drawn.setReg x b) :=
  Frame.trans (Frame.mono (by simp) (frame_drawn s)) (Frame.mono (by simp) (frame_setReg s.drawn x b))

@[simp] theorem State.length_regsUpTo (s : State) (x : Reg) : (s.regsUpTo x).length = x.val + 1 := by
  have := x.isLt
  simp only [State.regsUpTo, List.length_take, Vector.length_toList]
  omega

/-- Storing `V0` to `VX` writes the bytes from `I` on, one a register (R185). -/
theorem frame_storeRegs (s : State) (x : Reg) :
    Frame (memParts s.i (x.val + 1)) s (s.storeBytes s.i (s.regsUpTo x)) := by
  rw [← s.length_regsUpTo x]
  exact frame_storeBytes s s.i (s.regsUpTo x)

/-- The rows DRW puts on the display, and whether a sprite 1 met a lit pixel (R201). -/
def State.sprite (s : State) (x y : Reg) (n : BitVec 4) : Vector Row 32 × Bool :=
  drawRows (s.column x) (s.line y) s.disp false (s.bytesAt s.i n.toNat)

/-- The state after DRW: new rows, and the collision in VF (R201). -/
def State.drew (s : State) (x y : Reg) (n : BitVec 4) : State :=
  (s.setDisplay (s.sprite x y n).1).setReg regF (flagByte (s.sprite x y n).2)

theorem exec_drw (x y : Reg) (n : BitVec 4) (s : State) : exec (.drw x y n) s = .next (s.drew x y n) := rfl

/-- DRW writes the rows, `changed` and VF alone (R201). -/
theorem frame_drew (s : State) (x y : Reg) (n : BitVec 4) :
    Frame (.v regF :: .changed :: allRows) s (s.drew x y n) :=
  Frame.trans (Frame.mono (List.subset_cons_self _ _) (frame_setDisplay s _))
    (Frame.mono (by simp) (frame_setReg (s.setDisplay _) regF _))

end Sys2Proof.Machine

/-! ## Proofs: what every instruction writes (spec 10_state.md R42, 40_flow.md R120) -/

namespace Sys2Proof.Machine

/-- An answer with a frame is one with `pc` among the parts listed. -/
theorem exists_frame_pc_cons {o : Host.Outcome State Fault Refusal} {ps : List Part} {s t : State} (h : o = .next t)
    (hf : Frame ps s t) : ∃ t, o = .next t ∧ Frame (.pc :: ps) s t :=
  ⟨t, h, hf.mono (List.subset_cons_self _ _)⟩

/-- Settles O44: each instruction is one or two updates of the state, and each update has its frame; CALL and RET have
two, and LD Vx, K too. -/
theorem instructionsWriteWhatTheSummaryLists : Obligations.InstructionsWriteWhatTheSummaryLists := by
  intro i s
  cases i with
  | cls => exact exists_frame_pc_cons (exec_cls s) (frame_clearDisplay s)
  | ret =>
    rw [exec_ret]
    by_cases hsp : s.sp = 0
    · exact ⟨_, execRet_empty hsp, (frame_raise s _).mono (by simp [writeSummary])⟩
    · exact ⟨_, execRet_pop hsp, (frame_pop s).mono (by simp [writeSummary])⟩
  | jp nnn => exact ⟨_, exec_jp nnn s, frame_setPc s nnn⟩
  | call nnn =>
    rw [exec_call]
    by_cases hsp : s.sp = 15
    · exact ⟨_, execCall_full hsp nnn, (frame_raise s _).mono (by simp [writeSummary])⟩
    · exact ⟨_, execCall_push hsp nnn, (frame_push_setPc s nnn).mono (by simp [writeSummary])⟩
  | seImm x nn => exact ⟨_, exec_seImm x nn s, frame_skipIf s _⟩
  | sneImm x nn => exact ⟨_, exec_sneImm x nn s, frame_skipIf s _⟩
  | seReg x y n => exact ⟨_, exec_seReg x y n s, frame_skipIf s _⟩
  | ldImm x nn => exact exists_frame_pc_cons (exec_ldImm x nn s) (frame_setReg s x _)
  | addImm x nn => exact exists_frame_pc_cons (exec_addImm x nn s) (frame_setReg s x _)
  | ldReg x y => exact exists_frame_pc_cons (exec_ldReg x y s) (frame_setReg s x _)
  | orReg x y => exact exists_frame_pc_cons (exec_orReg x y s) (frame_setReg s x _)
  | andReg x y => exact exists_frame_pc_cons (exec_andReg x y s) (frame_setReg s x _)
  | xorReg x y => exact exists_frame_pc_cons (exec_xorReg x y s) (frame_setReg s x _)
  | addReg x y => exact exists_frame_pc_cons (exec_addReg x y s) (frame_setFlagThenReg s x _ _)
  | sub x y => exact exists_frame_pc_cons (exec_sub x y s) (frame_setFlagThenReg s x _ _)
  | shr x y => exact exists_frame_pc_cons (exec_shr x y s) (frame_setFlagThenReg s x _ _)
  | subn x y => exact exists_frame_pc_cons (exec_subn x y s) (frame_setFlagThenReg s x _ _)
  | shl x y => exact exists_frame_pc_cons (exec_shl x y s) (frame_setFlagThenReg s x _ _)
  | sneReg x y n => exact ⟨_, exec_sneReg x y n s, frame_skipIf s _⟩
  | ldI nnn => exact exists_frame_pc_cons (exec_ldI nnn s) (frame_setI s _)
  | jpV0 nnn => exact ⟨_, exec_jpV0 nnn s, frame_setPc s _⟩
  | rnd x nn => exact exists_frame_pc_cons (exec_rnd x nn s) (frame_drawn_setReg s x _)
  | drw x y n => exact exists_frame_pc_cons (exec_drw x y n s) (frame_drew s x y n)
  | skp x => exact ⟨_, exec_skp x s, frame_skipIf s _⟩
  | sknp x => exact ⟨_, exec_sknp x s, frame_skipIf s _⟩
  | ldVxDt x => exact exists_frame_pc_cons (exec_ldVxDt x s) (frame_setReg s x _)
  | ldVxK x =>
    rw [exec_ldVxK]
    cases hk : s.lowestEdge with
    | some k => exact exists_frame_pc_cons (execLdVxK_edge hk x) (frame_setReg s x _)
    | none => exact ⟨_, execLdVxK_wait hk x, (frame_setPc s _).mono (by simp [writeSummary])⟩
  | ldDtVx x => exact exists_frame_pc_cons (exec_ldDtVx x s) (frame_setDt s _)
  | ldStVx x => exact exists_frame_pc_cons (exec_ldStVx x s) (frame_setSt s _)
  | addI x => exact exists_frame_pc_cons (exec_addI x s) (frame_setI s _)
  | ldF x => exact exists_frame_pc_cons (exec_ldF x s) (frame_setI s _)
  | ldB x => exact exists_frame_pc_cons (exec_ldB x s) (frame_storeBytes s s.i (bcdDigits (s.reg x)))
  | ldMemVx x => exact exists_frame_pc_cons (exec_ldMemVx x s) (frame_storeRegs s x)
  | ldVxMem x => exact exists_frame_pc_cons (exec_ldVxMem x s) (frame_loadRegs s x)

/-- Every instruction answers a state: none faults or is refused (R120). -/
theorem exec_total (i : Instr) (s : State) : ∃ t, exec i s = .next t :=
  (instructionsWriteWhatTheSummaryLists i s).imp fun _ h => h.1

/-- What an instruction answers differs from its state where the access summary says (R42). -/
theorem frame_exec {i : Instr} {s t : State} (h : exec i s = .next t) : Frame (.pc :: writeSummary s i) s t := by
  obtain ⟨u, hu, hframe⟩ := instructionsWriteWhatTheSummaryLists i s
  obtain rfl := eq_of_next h hu
  exact hframe

end Sys2Proof.Machine

/-! ## Proofs: the `pc` after every instruction (spec 10_state.md R24) -/

namespace Sys2Proof.Machine

/-- There is no rising edge exactly when no bit of this frame's keys is new (R222). -/
theorem State.lowestEdge_eq_none_iff_and (s : State) : s.lowestEdge = none ↔ s.keysCur &&& ~~~s.keysPrev = 0 := by
  rw [s.lowestEdge_none]
  constructor
  · intro h
    apply BitVec.eq_of_getLsbD_eq
    intro k hk
    simpa [State.keyEdge, BitVec.getLsbD_eq_getElem, hk] using h ⟨k, hk⟩
  · intro h k
    simpa [State.keyEdge, k.isLt] using congrArg (·.getLsbD k.val) h

/-- Settles O20: the instructions with two answers split on what chooses between them; every other one leaves the
advanced `pc` or sets it to what the table says. -/
theorem pcAfterEveryInstruction : Obligations.PcAfterEveryInstruction := by
  intro i s
  cases i
  case ret =>
    rw [exec_ret]
    by_cases hsp : s.sp = 0
    · exact ⟨_, execRet_empty hsp, (if_pos hsp).symm⟩
    · exact ⟨_, execRet_pop hsp, (if_neg hsp).symm⟩
  case call nnn =>
    rw [exec_call]
    by_cases hsp : s.sp = 15
    · exact ⟨_, execCall_full hsp nnn, (if_pos hsp).symm⟩
    · exact ⟨_, execCall_push hsp nnn, (if_neg hsp).symm⟩
  case ldVxK x =>
    rw [exec_ldVxK]
    cases hk : s.lowestEdge with
    | some k =>
      have hne : ¬ s.keysCur &&& ~~~s.keysPrev = 0 := by rw [← s.lowestEdge_eq_none_iff_and, hk]; simp
      exact ⟨_, execLdVxK_edge hk x, (if_neg hne).symm⟩
    | none => exact ⟨_, execLdVxK_wait hk x, (if_pos (s.lowestEdge_eq_none_iff_and.mp hk)).symm⟩
  case seImm x nn => exact ⟨_, exec_seImm x nn s, by simp [pcAfter]⟩
  case sneImm x nn => exact ⟨_, exec_sneImm x nn s, by simp [pcAfter]⟩
  case seReg x y n => exact ⟨_, exec_seReg x y n s, by simp [pcAfter]⟩
  case sneReg x y n => exact ⟨_, exec_sneReg x y n s, by simp [pcAfter]⟩
  case skp x => exact ⟨_, exec_skp x s, by simp [pcAfter, s.keyDown_lowNibble]⟩
  case sknp x => exact ⟨_, exec_sknp x s, by simp [pcAfter, s.keyDown_lowNibble, ← Bool.not_eq_true, ite_not]⟩
  all_goals exact ⟨_, rfl, rfl⟩

/-- An instruction's answer has the `pc` of R24's table. -/
theorem pc_exec {i : Instr} {s t : State} (h : exec i s = .next t) : t.pc = pcAfter s i := by
  obtain ⟨u, hu, hpc⟩ := pcAfterEveryInstruction i s
  obtain rfl := eq_of_next h hu
  exact hpc

end Sys2Proof.Machine

/-! ## Proofs: what no instruction reads (spec 10_state.md R29, R31; 41_alu.md R164) -/

namespace Sys2Proof.Machine

/-- The state with other values in ST, `changed` and the two fields of the random input. -/
def State.overlay (s : State) (b : Byte) (c : Bool) (r : Option Byte) (d : Nat) : State :=
  { s with st := b, changed := c, rnd := r, draws := d }

theorem State.skipIf_overlay (s : State) (b : Byte) (c : Bool) (r : Option Byte) (d : Nat) (taken : Bool) :
    (s.overlay b c r d).skipIf taken = (s.skipIf taken).overlay b c r d := by
  cases taken <;> rfl

/-- Only RND, CLS, DRW and LD ST, Vx have to do with ST, `changed` and the random input: any other instruction does the
same whatever they hold, and keeps them (R29, R31, R164). -/
theorem exec_overlay {i : Instr} (hrnd : ∀ x nn, i ≠ .rnd x nn) (hcls : i ≠ .cls) (hdrw : ∀ x y n, i ≠ .drw x y n)
    (hst : ∀ x, i ≠ .ldStVx x) {s t : State} (h : exec i s = .next t) (b : Byte) (c : Bool) (r : Option Byte)
    (d : Nat) : exec i (s.overlay b c r d) = .next (t.overlay b c r d) := by
  cases i
  case rnd x nn => exact absurd rfl (hrnd x nn)
  case cls => exact absurd rfl hcls
  case drw x y n => exact absurd rfl (hdrw x y n)
  case ldStVx x => exact absurd rfl (hst x)
  case ret =>
    obtain ⟨hsp, rfl⟩ | ⟨hsp, rfl⟩ := exec_ret_cases h
    · exact execRet_empty (s := s.overlay b c r d) hsp
    · exact execRet_pop (s := s.overlay b c r d) hsp
  case call nnn =>
    obtain ⟨hsp, rfl⟩ | ⟨hsp, rfl⟩ := exec_call_cases h
    · exact execCall_full (s := s.overlay b c r d) hsp nnn
    · exact execCall_push (s := s.overlay b c r d) hsp nnn
  case ldVxK x =>
    obtain ⟨hk, rfl⟩ | ⟨k, hk, rfl⟩ := exec_ldVxK_cases h
    · exact execLdVxK_wait (s := s.overlay b c r d) hk x
    · exact execLdVxK_edge (s := s.overlay b c r d) hk x
  case seImm | sneImm | seReg | sneReg | skp | sknp =>
    obtain rfl := Host.Outcome.next.inj h
    exact congrArg Host.Outcome.next (s.skipIf_overlay b c r d _)
  all_goals
    obtain rfl := Host.Outcome.next.inj h
    rfl

/-- RND with a supplied byte takes that byte (R164). -/
theorem exec_rnd_supplied (s : State) (x : Reg) (nn b : Byte) :
    exec (.rnd x nn) { s with rnd := some b } = .next (s.drawn.setReg x (b &&& nn)) := rfl

/-- Every instruction but RND does the same whatever is on the random input (R164). -/
theorem exec_withRandom {i : Instr} (hrnd : ∀ x nn, i ≠ .rnd x nn) (s : State) (r : Option Byte) (d : Nat) :
    ∃ t, exec i s = .next t ∧ exec i { s with rnd := r, draws := d } = .next { t with rnd := r, draws := d } := by
  by_cases hcls : i = .cls
  · subst hcls
    exact ⟨_, exec_cls s, rfl⟩
  by_cases hdrw : ∃ x y n, i = .drw x y n
  · obtain ⟨x, y, n, rfl⟩ := hdrw
    exact ⟨_, exec_drw x y n s, rfl⟩
  by_cases hst : ∃ x, i = .ldStVx x
  · obtain ⟨x, rfl⟩ := hst
    exact ⟨_, exec_ldStVx x s, rfl⟩
  obtain ⟨t, ht⟩ := exec_total i s
  have same := exec_overlay hrnd hcls (fun x y n h => hdrw ⟨x, y, n, h⟩) (fun x h => hst ⟨x, h⟩) ht
  exact ⟨_, same s.st s.changed s.rnd s.draws, same s.st s.changed r d⟩

/-- Settles O26: RND takes the byte supplied; no other instruction looks at the input. -/
theorem rndAloneReadsTheRandomByte : Obligations.RndAloneReadsTheRandomByte :=
  ⟨fun s x nn b => ⟨_, exec_rnd_supplied s x nn b, State.reg_setReg_same _ _ _, frame_drawn_setReg _ x _⟩,
    fun _ s r d hi => exec_withRandom hi s r d⟩

/-- Settles O27: with no byte supplied, the byte of the step is the free value of the draw. -/
theorem rndWithoutASuppliedByteRunsOnAFreeOne : Obligations.RndWithoutASuppliedByteRunsOnAFreeOne := by
  intro s x nn hnone
  refine ⟨_, exec_rnd x nn s, ?_, rfl, rfl, frame_drawn_setReg s x _⟩
  rw [State.reg_setReg_same, State.rndByte, hnone, Option.getD_none]

/-- Settles O45: CLS, DRW and LD ST, Vx overwrite what they do not read, and the others write neither. -/
theorem soundTimerAndChangedAreNeverRead : Obligations.SoundTimerAndChangedAreNeverRead := by
  intro i s b c
  by_cases hcls : i = .cls
  · subst hcls
    exact ⟨_, b, true, exec_cls s, rfl, by simp⟩
  by_cases hdrw : ∃ x y n, i = .drw x y n
  · obtain ⟨x, y, n, rfl⟩ := hdrw
    exact ⟨_, b, true, exec_drw x y n s, rfl, by simp [State.drew]⟩
  by_cases hst : ∃ x, i = .ldStVx x
  · obtain ⟨x, rfl⟩ := hst
    exact ⟨_, s.reg x, c, exec_ldStVx x s, rfl, by simp⟩
  by_cases hrnd : ∃ x nn, i = .rnd x nn
  · obtain ⟨x, nn, rfl⟩ := hrnd
    exact ⟨_, b, c, exec_rnd x nn s, rfl, by simp⟩
  obtain ⟨t, ht⟩ := exec_total i s
  have same := exec_overlay (fun x nn h => hrnd ⟨x, nn, h⟩) hcls (fun x y n h => hdrw ⟨x, y, n, h⟩)
    (fun x h => hst ⟨x, h⟩) ht
  exact ⟨_, b, c, same s.st s.changed s.rnd s.draws, same b c s.rnd s.draws, fun h => absurd h hst, fun _ => rfl,
    fun h => absurd h (not_or.mpr ⟨hcls, hdrw⟩), fun _ => rfl⟩

end Sys2Proof.Machine

/-! ## Proofs: the step and the stack faults (spec 40_flow.md R120; 60_exceptions.md R241, R245 to R247) -/

namespace Sys2Proof.Machine

/-- Every step answers a state (R120). -/
theorem step_total (s : State) : ∃ t, step s = .next t := by
  obtain ⟨_, h⟩ | ⟨_, _, _, h⟩ | ⟨_, i, _, h⟩ := step_cases s
  · exact ⟨s, h⟩
  · exact ⟨s.advance, h⟩
  · exact h ▸ exec_total i s.advance

theorem step_of_fault {s : State} (hf : s.fault ≠ .none) : step s = .next s := by
  obtain ⟨_, h⟩ | ⟨hn, _⟩ | ⟨hn, _⟩ := step_cases s
  · exact h
  · exact absurd hn hf
  · exact absurd hn hf

theorem step_of_nonMatch {s : State} {why : NonMatch} (hf : s.fault = .none) (hd : decode s.fetchWord = .nonMatch why) :
    step s = .next s.advance := by
  obtain ⟨hn, _⟩ | ⟨_, _, _, h⟩ | ⟨_, i, hi, _⟩ := step_cases s
  · exact absurd hf hn
  · exact h
  · exact absurd (hi.symm.trans hd) (by simp)

theorem step_of_instr {s : State} {i : Instr} (hf : s.fault = .none) (hd : decode s.fetchWord = .instr i) :
    step s = exec i s.advance := by
  obtain ⟨hn, _⟩ | ⟨_, _, hw, _⟩ | ⟨_, j, hj, h⟩ := step_cases s
  · exact absurd hf hn
  · exact absurd (hw.symm.trans hd) (by simp)
  · obtain rfl : j = i := Decoded.instr.inj (hj.symm.trans hd)
    exact h

/-- The word fetched is the one of its number (R63). -/
theorem State.fetchWord_eq_of_toNat {s : State} {w : Word}
    (hw : w.toNat = (s.byteAt s.pc).toNat * 256 + (s.byteAt (s.pc + 1)).toNat) : s.fetchWord = w := by
  apply BitVec.eq_of_toNat_eq
  rw [State.fetchWord, toNat_ofBytes, hw]

/-- Settles O4: the two bytes make the word fetched, and the step does with it what it decodes to. -/
theorem stepRunsTheDecodedInstruction : Obligations.StepRunsTheDecodedInstruction := by
  intro s w hw
  obtain rfl := State.fetchWord_eq_of_toNat hw
  exact ⟨step_of_fault, fun hf _ hd => step_of_instr hf hd, fun hf _ hd => step_of_nonMatch hf hd⟩

/-- The next step is a CALL with the stack full (R245). -/
def State.FullCall (s : State) : Prop := s.sp = 15 ∧ ∃ nnn, decode s.fetchWord = .instr (.call nnn)

/-- The next step is a RET with the stack empty (R246). -/
def State.EmptyRet (s : State) : Prop := s.sp = 0 ∧ decode s.fetchWord = .instr .ret

/-- The access summary lets CALL and RET alone write `fault` (R42, R241). -/
theorem fault_notMem_writeSummary {i : Instr} (hcall : ∀ nnn, i ≠ .call nnn) (hret : i ≠ .ret) (s : State) :
    Part.fault ∉ Part.pc :: writeSummary s i := by
  cases i
  case call nnn => exact absurd rfl (hcall nnn)
  case ret => exact absurd rfl hret
  all_goals simp [writeSummary, allRows, memParts, regParts]

/-- The access summary lets CALL alone write the stack (R42). -/
theorem stack_notMem_writeSummary {i : Instr} (hcall : ∀ nnn, i ≠ .call nnn) (s : State) (k : Fin 16) :
    Part.stack k ∉ Part.pc :: writeSummary s i := by
  cases i
  case call nnn => exact absurd rfl (hcall nnn)
  all_goals simp [writeSummary, allRows, memParts, regParts]

/-- What an instruction fetched from a core with no fault makes of `fault`: a CALL with the stack full and a RET with it
empty change `fault` and nothing else, and any other instruction leaves it (R241, R245 to R247). -/
theorem exec_fault_cases {s t : State} {i : Instr} (hf : s.fault = .none) (hd : decode s.fetchWord = .instr i)
    (h : exec i s.advance = .next t) :
    (t.fault = .none ∧ ¬ s.FullCall ∧ ¬ s.EmptyRet) ∨ (s.FullCall ∧ t = { s with fault := .stackOverflow }) ∨
      (s.EmptyRet ∧ t = { s with fault := .stackUnderflow }) := by
  by_cases hcall : ∃ nnn, i = .call nnn
  · obtain ⟨nnn, rfl⟩ := hcall
    have hret : ¬ s.EmptyRet := fun he => by simpa using hd.symm.trans he.2
    obtain ⟨hsp, rfl⟩ | ⟨hsp, rfl⟩ := exec_call_cases h
    · exact .inr (.inl ⟨⟨hsp, nnn, hd⟩, s.raise_advance _⟩)
    · exact .inl ⟨hf, fun hfull => hsp hfull.1, hret⟩
  have hfull : ¬ s.FullCall := fun ⟨_, nnn, hd'⟩ => hcall ⟨nnn, Decoded.instr.inj (hd.symm.trans hd')⟩
  by_cases hret : i = .ret
  · subst hret
    obtain ⟨hsp, rfl⟩ | ⟨hsp, rfl⟩ := exec_ret_cases h
    · exact .inr (.inr ⟨⟨hsp, hd⟩, s.raise_advance _⟩)
    · exact .inl ⟨hf, hfull, fun he => hsp he.1⟩
  · have hkeep : t.fault = s.fault :=
      frame_exec h .fault (fault_notMem_writeSummary (fun nnn e => hcall ⟨nnn, e⟩) hret s.advance)
    exact .inl ⟨hkeep.trans hf, hfull, fun he => hret (Decoded.instr.inj (hd.symm.trans he.2))⟩

/-- What a step of a core with no fault makes of `fault` (R241, R245 to R247). -/
theorem step_fault_cases {s t : State} (hf : s.fault = .none) (h : step s = .next t) :
    (t.fault = .none ∧ ¬ s.FullCall ∧ ¬ s.EmptyRet) ∨ (s.FullCall ∧ t = { s with fault := .stackOverflow }) ∨
      (s.EmptyRet ∧ t = { s with fault := .stackUnderflow }) := by
  cases hd : decode s.fetchWord with
  | instr i => exact exec_fault_cases hf hd ((step_of_instr hf hd).symm.trans h)
  | nonMatch why =>
    obtain rfl := eq_of_next h (step_of_nonMatch hf hd)
    exact .inl ⟨hf, fun ⟨_, _, hd'⟩ => by simpa using hd.symm.trans hd',
      fun ⟨_, hd'⟩ => by simpa using hd.symm.trans hd'⟩

/-- Settles O6: a step that raises changes `fault` alone, and a faulted step changes nothing. -/
theorem faultsArePreciseAndStuck : Obligations.FaultsArePreciseAndStuck := by
  refine ⟨fun s t hf h hraised => ?_, fun s => step_of_fault⟩
  obtain ⟨hnone, _⟩ | ⟨_, rfl⟩ | ⟨_, rfl⟩ := step_fault_cases hf h
  · exact absurd hnone hraised
  · rfl
  · rfl

/-- Settles O7: the three cases of a step exclude each other, and each fixes `fault`. -/
theorem onlyFullCallAndEmptyRetFault : Obligations.OnlyFullCallAndEmptyRetFault := by
  refine ⟨fun s t hf h => ?_, rfl, rfl, rfl⟩
  show (_ ↔ s.FullCall) ∧ (_ ↔ s.EmptyRet)
  obtain ⟨hnone, hfull, hempty⟩ | ⟨hfull, rfl⟩ | ⟨hempty, rfl⟩ := step_fault_cases hf h
  · simp [hnone, hfull, hempty]
  · have hempty : ¬ s.EmptyRet := fun he => by simpa [hfull.1] using he.1
    simp [hfull, hempty]
  · have hfull : ¬ s.FullCall := fun hc => by simpa [hempty.1] using hc.1
    simp [hfull, hempty]

end Sys2Proof.Machine

/-! ## Proofs: the decode non-match and the parked states (spec 30_encoding.md R100; 70_reset_and_hazards.md R298) -/

namespace Sys2Proof.Machine

/-- `undef` shows that the next step fetches a non-match (R258). -/
theorem State.undef_iff (s : State) : s.undef = true ↔ s.fault = .none ∧ ∃ why, decode s.fetchWord = .nonMatch why := by
  unfold State.undef
  cases s.fault with
  | none => cases decode s.fetchWord <;> simp
  | stackOverflow | stackUnderflow => simp

theorem State.toNat_advance_pc (s : State) : s.advance.pc.toNat = (s.pc.toNat + 2) % 4096 :=
  BitVec.toNat_add s.pc Config.instrBytes

/-- Settles O12: the step on a non-match is the fetch's advance and nothing else. -/
theorem nonMatchIsANoOperation : Obligations.NonMatchIsANoOperation := by
  refine fun s => ⟨s.undef_iff, fun hundef => ?_⟩
  obtain ⟨hf, why, hd⟩ := s.undef_iff.mp hundef
  exact ⟨s.advance, step_of_nonMatch hf hd, s.toNat_advance_pc, frame_setPc s _⟩

/-- A `pc` that advanced by 2, or by 2 more after a skip, is not the old one (R120, R130). -/
theorem State.ne_of_pc_advanced {s t : State} {c : Prop} [Decidable c]
    (h : t.pc = if c then s.advance.pc + 2 else s.advance.pc) : t ≠ s := by
  rintro rfl
  split_ifs at h <;> simp only [State.advance_pc, Config.instrBytes] at h <;> bv_omega

/-- A RET does not answer the state it was fetched from: it raises the fault or lowers `sp`. -/
theorem exec_ret_ne_self {s t : State} (hf : s.fault = .none) (h : exec .ret s.advance = .next t) : t ≠ s := by
  rintro rfl
  obtain ⟨_, hraise⟩ | ⟨_, hpop⟩ := exec_ret_cases h
  · simpa [hf] using congrArg State.fault hraise
  · have hsp := congrArg State.sp hpop
    simp only [State.pop_sp, State.advance_sp] at hsp
    bv_omega

/-- A CALL does not answer the state it was fetched from: it raises the fault or raises `sp`. -/
theorem exec_call_ne_self {s t : State} {nnn : Addr} (hf : s.fault = .none)
    (h : exec (.call nnn) s.advance = .next t) : t ≠ s := by
  rintro rfl
  obtain ⟨_, hraise⟩ | ⟨_, hpush⟩ := exec_call_cases h
  · simpa [hf] using congrArg State.fault hraise
  · have hsp := congrArg State.sp hpush
    simp only [State.setPc_sp, State.push_sp, State.advance_sp] at hsp
    bv_omega

/-- An instruction fetched from a core with no fault answers the state it was fetched from in these three ways alone:
every other one moves `pc` on, raises a fault or moves `sp`. -/
theorem exec_advance_eq_self_iff {s : State} {i : Instr} (hf : s.fault = .none) :
    exec i s.advance = .next s ↔ i = .jp s.pc ∨ (∃ nnn, i = .jpV0 nnn ∧ nnn + (s.reg 0).setWidth 12 = s.pc) ∨
      (∃ x, i = .ldVxK x ∧ ∀ k, ¬ s.RisingEdge k) := by
  constructor
  · intro h
    have hpc := pc_exec h
    cases i
    case jp nnn => exact .inl (congrArg _ hpc.symm)
    case jpV0 nnn => exact .inr (.inl ⟨nnn, rfl, hpc.symm⟩)
    case ldVxK x =>
      refine .inr (.inr ⟨x, rfl, s.lowestEdge_eq_none_iff.mp (s.lowestEdge_eq_none_iff_and.mpr ?_)⟩)
      by_contra hedge
      exact State.ne_of_pc_advanced (c := False) (hpc.trans (if_neg hedge)) rfl
    case ret => exact absurd rfl (exec_ret_ne_self hf h)
    case call nnn => exact absurd rfl (exec_call_ne_self hf h)
    case seImm | seReg | skp => exact absurd rfl (State.ne_of_pc_advanced hpc)
    case sneImm | sneReg | sknp => exact absurd rfl (State.ne_of_pc_advanced (hpc.trans (ite_not ..).symm))
    all_goals exact absurd rfl (State.ne_of_pc_advanced (c := False) hpc)
  · rintro (rfl | ⟨nnn, rfl, hsum⟩ | ⟨x, rfl, hno⟩)
    · exact exec_jp s.pc s.advance
    · exact (exec_jpV0 nnn s.advance).trans (congrArg (fun a => Host.Outcome.next (s.advance.setPc a)) hsum)
    · rw [exec_ldVxK, execLdVxK_wait (s := s.advance) (s.lowestEdge_eq_none_iff.mpr hno), s.rewind_advance]

/-- Settles O47: a parked step is no non-match, which advances `pc`, so it executes one of the three instructions that
answer the state they were fetched from. -/
theorem parkedStatesAreTheseThree : Obligations.ParkedStatesAreTheseThree := by
  have hparked : ∀ s : State, s.Parked ↔ s.fault = .none ∧ (decode s.fetchWord = .instr (.jp s.pc) ∨
      (∃ nnn, decode s.fetchWord = .instr (.jpV0 nnn) ∧ nnn + (s.reg 0).setWidth 12 = s.pc) ∨
      (∃ x, decode s.fetchWord = .instr (.ldVxK x) ∧ ∀ k, ¬ s.RisingEdge k)) := by
    refine fun s => and_congr_right fun hf => ?_
    cases hd : decode s.fetchWord with
    | instr i => rw [step_of_instr hf hd, exec_advance_eq_self_iff hf]; simp
    | nonMatch why =>
      have hne : s.advance ≠ s := State.ne_of_pc_advanced (c := False) rfl
      simp [step_of_nonMatch hf hd, hne]
  exact ⟨hparked, fun s hfin => (hparked s).mpr ⟨hfin.1, .inl hfin.2⟩⟩

end Sys2Proof.Machine

/-! ## Proofs: the invariant, kept by every step (spec 10_state.md R38; 60_exceptions.md R245, R246) -/

namespace Sys2Proof.Machine

/-- The invariant speaks of memory, the stack, `sp`, `pc` and `fault` alone. -/
theorem Invariant.of_eq {s t : State} (hs : Invariant s) (hmem : t.mem = s.mem) (hstack : t.stack = s.stack)
    (hsp : t.sp = s.sp) (hpc : t.pc = s.pc) (hfault : t.fault = s.fault) : Invariant t := by
  have hword : t.fetchWord = s.fetchWord := by simp only [State.fetchWord, State.byteAt, hmem, hpc]
  refine ⟨hmem ▸ hs.memory, hstack ▸ hs.slotZero, ?_, ?_⟩
  · rw [hfault, hsp, hword]
    exact hs.overflow
  · rw [hfault, hsp, hword]
    exact hs.underflow

/-- Every instruction keeps the canonical form of memory: two store bytes, and the others leave memory as it is. -/
theorem exec_keeps_wf {i : Instr} {s t : State} (hm : Memory.wf s.mem = true) (h : exec i s = .next t) :
    Memory.wf t.mem = true := by
  cases i
  case ret => obtain ⟨_, rfl⟩ | ⟨_, rfl⟩ := exec_ret_cases h <;> exact hm
  case call nnn => obtain ⟨_, rfl⟩ | ⟨_, rfl⟩ := exec_call_cases h <;> exact hm
  case ldVxK x => obtain ⟨_, rfl⟩ | ⟨_, _, rfl⟩ := exec_ldVxK_cases h <;> exact hm
  case seImm | sneImm | seReg | sneReg | skp | sknp =>
    obtain rfl := Host.Outcome.next.inj h
    rwa [State.skipIf_mem]
  case ldB | ldMemVx =>
    obtain rfl := Host.Outcome.next.inj h
    exact Memory.wf_writeBytes _ _ _ hm
  all_goals
    obtain rfl := Host.Outcome.next.inj h
    exact hm

/-- No instruction writes slot 0: CALL alone writes the stack, above `sp`, and not when that would wrap (R27). -/
theorem exec_keeps_slotZero {i : Instr} {s t : State} (h : exec i s = .next t) : t.stack[0] = s.stack[0] := by
  by_cases hcall : ∃ nnn, i = .call nnn
  · obtain ⟨nnn, rfl⟩ := hcall
    obtain ⟨_, rfl⟩ | ⟨hsp, rfl⟩ := exec_call_cases h
    · rfl
    · have hne : (0 : Fin 16) ≠ (s.sp + 1).toFin := fun e => hsp (by
        have hval := congrArg Fin.val e
        simp only [BitVec.val_toFin, Fin.val_zero] at hval
        bv_omega)
      exact s.stack_push_other s.pc hne
  · exact frame_exec h (.stack 0) (stack_notMem_writeSummary (fun nnn e => hcall ⟨nnn, e⟩) s 0)

/-- A step keeps the clauses of the invariant about memory and slot 0. -/
theorem step_keeps_wf_and_slotZero {s t : State} (hm : Memory.wf s.mem = true) (h : step s = .next t) :
    Memory.wf t.mem = true ∧ t.stack[0] = s.stack[0] := by
  obtain ⟨_, he⟩ | ⟨_, _, _, he⟩ | ⟨_, i, _, he⟩ := step_cases s
  · obtain rfl := eq_of_next h he
    exact ⟨hm, rfl⟩
  · obtain rfl := eq_of_next h he
    exact ⟨hm, rfl⟩
  · have hexec := he.symm.trans h
    exact ⟨exec_keeps_wf (s := s.advance) hm hexec, exec_keeps_slotZero (s := s.advance) hexec⟩

/-- Settles O48: memory and slot 0 by what the instructions write, and the fault clauses by what a step makes of
`fault`: none, or the one whose cause the clause names. -/
theorem everyStepKeepsTheInvariant : Obligations.EveryStepKeepsTheInvariant := by
  intro s t hs h
  by_cases hf : s.fault = .none
  · obtain ⟨hwf, hslot⟩ := step_keeps_wf_and_slotZero hs.memory h
    have hzero : t.stack[0] = 0 := hslot.trans hs.slotZero
    obtain ⟨hnone, _⟩ | ⟨hfull, rfl⟩ | ⟨hempty, rfl⟩ := step_fault_cases hf h
    · exact ⟨hwf, hzero, fun e => absurd (hnone.symm.trans e) (by decide),
        fun e => absurd (hnone.symm.trans e) (by decide)⟩
    · exact ⟨hwf, hzero, fun _ => hfull, fun e => absurd e (by simp)⟩
    · exact ⟨hwf, hzero, fun e => absurd e (by simp), fun _ => hempty⟩
  · obtain rfl := eq_of_next h (step_of_fault hf)
    exact hs

/-- Settles O52: the step by itself, with its random byte before and taken away after; a host's operation writes nothing
the invariant speaks of. -/
theorem everyMoveKeepsTheInvariant : Obligations.EveryMoveKeepsTheInvariant := by
  intro m s t hs h
  obtain ⟨b, u, -, hstep, rfl⟩ | ⟨-, rfl⟩ | ⟨keys, -, rfl⟩ | ⟨-, rfl⟩ | ⟨-, rfl⟩ := move_cases h
  · have hsupplied : Invariant { s with rnd := some b } := hs.of_eq rfl rfl rfl rfl rfl
    exact (everyStepKeepsTheInvariant _ u hsupplied hstep).of_eq rfl rfl rfl rfl rfl
  · exact hs.of_eq rfl rfl rfl rfl rfl
  · exact hs.of_eq rfl rfl rfl rfl rfl
  · exact hs
  · exact hs.of_eq rfl rfl rfl rfl rfl

end Sys2Proof.Machine

/-! ## Proofs: schedules (spec 10_state.md R40; 60_exceptions.md R243) -/

namespace Sys2Proof.Machine

/-- Every move answers a state (R240). -/
theorem move_total (m : Move) (s : State) : ∃ t, m.apply s = .next t := by
  cases m with
  | step b =>
    obtain ⟨u, hu⟩ := step_total { s with rnd := some b }
    exact ⟨{ u with rnd := none }, by simp only [Move.apply, stepWith, hu]⟩
  | tick => exact ⟨tick s, rfl⟩
  | keyUpdate keys => exact ⟨keyUpdate keys s, rfl⟩
  | displayRead => exact ⟨s, rfl⟩
  | displayAck => exact ⟨displayAck s, rfl⟩

theorem runMoves_cons {m : Move} {s u : State} (h : m.apply s = .next u) (ms : List Move) :
    runMoves (m :: ms) s = runMoves ms u := by
  simp only [runMoves, h]

/-- Settles O5: one move after another. -/
theorem everyScheduleRunsToAState : Obligations.EveryScheduleRunsToAState := by
  intro ms
  induction ms with
  | nil => exact fun s => ⟨s, rfl⟩
  | cons m ms ih =>
    intro s
    obtain ⟨u, hu⟩ := move_total m s
    rw [runMoves_cons hu]
    exact ih u

/-- What every move of a schedule keeps, the schedule keeps. -/
theorem runMoves_keeps {P : State → Prop} {ms : List Move}
    (hkeep : ∀ m ∈ ms, ∀ s t, P s → m.apply s = .next t → P t) :
    ∀ {s t : State}, P s → runMoves ms s = .next t → P t := by
  induction ms with
  | nil =>
    intro s t hs h
    exact Host.Outcome.next.inj h ▸ hs
  | cons m ms ih =>
    intro s t hs h
    obtain ⟨u, hu⟩ := move_total m s
    rw [runMoves_cons hu] at h
    exact ih (fun m' hm' => hkeep m' (List.mem_cons_of_mem m hm')) (hkeep m List.mem_cons_self s u hs hu) h

/-! ### Frames of the moves -/

/-- What is on the random input is no part of the machine but the model's own two fields (log entry 2). -/
theorem frame_withRnd (s : State) (r : Option Byte) : Frame [.random] s { s with rnd := r } := by
  intro p hp
  cases p with
  | random => exact absurd List.mem_cons_self hp
  | _ => rfl

theorem frame_tick (s : State) : Frame [.dt, .st] s (tick s) := by
  intro p hp
  cases p with
  | dt | st => simp at hp
  | _ => simp [Part.same]

theorem frame_keyUpdate (s : State) (keys : BitVec 16) : Frame [.keysCur, .keysPrev] s (keyUpdate keys s) := by
  intro p hp
  cases p with
  | keysCur | keysPrev => simp at hp
  | _ => simp [Part.same]

theorem frame_displayAck (s : State) : Frame [.changed] s (displayAck s) := by
  intro p hp
  cases p with
  | changed => exact absurd List.mem_cons_self hp
  | _ => simp [Part.same]

/-- On a faulted core a move changes what ticks, key updates and acknowledges write, and the model's fields for the
random input, alone: the step is stuck (R247, R262). -/
theorem frame_move_of_fault {m : Move} {s t : State} (hf : s.fault ≠ .none) (h : m.apply s = .next t) :
    Frame [.dt, .st, .changed, .keysCur, .keysPrev, .random] s t := by
  obtain ⟨b, u, -, hstep, rfl⟩ | ⟨-, rfl⟩ | ⟨keys, -, rfl⟩ | ⟨-, rfl⟩ | ⟨-, rfl⟩ := move_cases h
  · obtain rfl := eq_of_next hstep (step_of_fault hf)
    exact (frame_withRnd s none).mono (by simp)
  · exact (frame_tick s).mono (by simp)
  · exact (frame_keyUpdate s keys).mono (by simp)
  · exact Frame.refl _ _
  · exact (frame_displayAck s).mono (by simp)

/-- Settles O8: the frame of each move says that the fault stays, so every later step is stuck too. -/
theorem faultOutlivesEverySchedule : Obligations.FaultOutlivesEverySchedule := by
  intro ms s t hf h
  refine runMoves_keeps (P := Frame [.dt, .st, .changed, .keysCur, .keysPrev, .random] s) (fun m _ u v hu hv => ?_)
    (Frame.refl _ s) h
  have hfu : u.fault ≠ .none := fun e => hf ((hu .fault (by simp)).symm.trans e)
  exact hu.trans (frame_move_of_fault hfu hv)

/-! ### The key read that waits -/

/-- The next step is an LD Vx, K with no rising edge (R222). -/
def State.WaitsForKey (s : State) : Prop :=
  s.fault = .none ∧ (∃ x, decode s.fetchWord = .instr (.ldVxK x)) ∧ ∀ k, ¬ s.RisingEdge k

/-- What does not change memory, `pc`, the fault and the keys keeps a state waiting. -/
theorem State.WaitsForKey.of_frame {ps : List Part} {s t : State} (hs : s.WaitsForKey) (h : Frame ps s t)
    (hps : ps ⊆ [.dt, .st, .changed, .random]) : t.WaitsForKey := by
  have same : Frame [.dt, .st, .changed, .random] s t := h.mono hps
  have hword : t.fetchWord = s.fetchWord := by
    have hpc : t.pc = s.pc := same .pc (by simp)
    have hbyte (a : Addr) : t.byteAt a = s.byteAt a := same (.mem a) (by simp)
    simp only [State.fetchWord, hpc, hbyte]
  have hcur : t.keysCur = s.keysCur := same .keysCur (by simp)
  have hprev : t.keysPrev = s.keysPrev := same .keysPrev (by simp)
  obtain ⟨hf, ⟨x, hd⟩, hno⟩ := hs
  refine ⟨(same .fault (by simp)).trans hf, ⟨x, hword ▸ hd⟩, fun k => ?_⟩
  rw [State.RisingEdge, hcur, hprev]
  exact hno k

/-- A waiting state steps to itself (R222). -/
theorem State.WaitsForKey.step_eq {s : State} (hs : s.WaitsForKey) : step s = .next s := by
  obtain ⟨hf, ⟨x, hd⟩, hno⟩ := hs
  rw [step_of_instr hf hd]
  exact (exec_advance_eq_self_iff hf).mpr (.inr (.inr ⟨x, rfl, hno⟩))

/-- Settles O39: whatever the moves, the state goes on waiting, for no key update comes. -/
theorem keyReadWaitsForAKeyUpdate : Obligations.KeyReadWaitsForAKeyUpdate := by
  intro ms s t x hf hd hno hms h
  have hs : s.WaitsForKey := ⟨hf, ⟨x, hd⟩, hno⟩
  refine runMoves_keeps (P := Frame [.dt, .st, .changed, .random] s) (fun m hm u v hu hv => hu.trans ?_)
    (Frame.refl _ s) h
  have huw : u.WaitsForKey := hs.of_frame hu (List.Subset.refl _)
  obtain ⟨b, w, -, hstep, rfl⟩ | ⟨-, rfl⟩ | ⟨keys, hkeys, -⟩ | ⟨-, rfl⟩ | ⟨-, rfl⟩ := move_cases hv
  · have hsupplied := huw.of_frame (frame_withRnd u (some b)) (by simp)
    obtain rfl := eq_of_next hstep hsupplied.step_eq
    exact (frame_withRnd u none).mono (by simp)
  · exact (frame_tick u).mono (by simp)
  · exact absurd hkeys (hms m hm keys)
  · exact Frame.refl _ _
  · exact (frame_displayAck u).mono (by simp)

/-! ### The host's operations -/

/-- Settles O46: each host move has its frame. -/
theorem hostMovesNeverRedirectTheProgram : Obligations.HostMovesNeverRedirectTheProgram := by
  intro m s hm
  cases m with
  | step b => exact absurd rfl (hm b)
  | tick => exact ⟨_, rfl, (frame_tick s).mono (by simp)⟩
  | keyUpdate keys => exact ⟨_, rfl, (frame_keyUpdate s keys).mono (by simp)⟩
  | displayRead => exact ⟨s, rfl, Frame.refl _ s⟩
  | displayAck => exact ⟨_, rfl, (frame_displayAck s).mono (by simp)⟩

theorem toNat_countDown (b : Byte) : (countDown b).toNat = b.toNat - 1 := by
  unfold countDown
  split_ifs with hb <;> bv_omega

/-- Settles O40: each tick takes one more from each timer, and nothing from a timer at 0. -/
theorem ticksCountDownToZero : Obligations.TicksCountDownToZero := by
  intro n
  induction n with
  | zero => exact fun s => ⟨s, rfl, rfl, rfl, Frame.refl _ s⟩
  | succ n ih =>
    intro s
    obtain ⟨t, ht, hdt, hst, hframe⟩ := ih (tick s)
    rw [tick_dt, toNat_countDown, Nat.sub_sub, Nat.add_comm] at hdt
    rw [tick_st, toNat_countDown, Nat.sub_sub, Nat.add_comm] at hst
    exact ⟨t, ht, hdt, hst, (frame_tick s).trans hframe⟩

theorem State.tone_iff (s : State) : s.outputs.tone = true ↔ s.st ≠ 0 := bne_iff_ne

/-- Settles O41: the tone is on while ST is not zero, and a tick leaves ST above zero exactly from 2 on. -/
theorem toneFollowsTheSoundTimer : Obligations.ToneFollowsTheSoundTimer := by
  refine fun s => ⟨s.tone_iff, ?_⟩
  have hcount := toNat_countDown s.st
  rw [State.tone_iff, tick_st]
  bv_omega

/-- Settles O51: each output is a field, but for the tone and the number of the fault. -/
theorem outputsShowTheState : Obligations.OutputsShowTheState := by
  refine fun s => ⟨fun _ => rfl, rfl, s.tone_iff, rfl, rfl, ?_⟩
  show (s.fault.code = 0 ↔ _) ∧ (s.fault.code = 1 ↔ _) ∧ (s.fault.code = 2 ↔ _)
  cases s.fault <;> decide

/-- Settles O42: the sample and the frame before it change places; two frames that agree have no edge, and against the
empty frame of a reset every key down is one. -/
theorem keyUpdateKeepsTheLastFrame : Obligations.KeyUpdateKeepsTheLastFrame := by
  refine ⟨fun keys s => ⟨rfl, rfl, frame_keyUpdate s keys⟩, fun keys s k hedge => ?_, fun font keys k => ?_⟩
  · obtain ⟨hcur, hprev⟩ := hedge
    exact absurd (hcur.symm.trans hprev) (by simp)
  · have hprev : (resetWith font).keysCur = 0 := rfl
    simp [State.RisingEdge, hprev]

/-- Settles O43: the read answers the state it was given, and the acknowledge has its frame. -/
theorem displayReadAndAcknowledge : Obligations.DisplayReadAndAcknowledge :=
  ⟨fun _ => ⟨rfl, rfl, rfl⟩, fun s => ⟨rfl, frame_displayAck s⟩⟩

end Sys2Proof.Machine

/-! ## Proofs: reset, launch and the runs from it (spec 70_reset_and_hazards.md R280 to R286) -/

namespace Sys2Proof.Machine

/-- Reset meets the invariant: nothing is listed, pushed or raised (R280). -/
theorem invariant_reset : Invariant State.reset :=
  ⟨Memory.wf_reset, rfl, fun e => absurd e (by decide), fun e => absurd e (by decide)⟩

/-- Bytes stored while there is no fault keep the invariant. -/
theorem Invariant.storeBytes {s : State} (hs : Invariant s) (hf : s.fault = .none) (a : Addr) (bs : List Byte) :
    Invariant (s.storeBytes a bs) := by
  have hnone : (s.storeBytes a bs).fault = .none := hf
  exact ⟨Memory.wf_writeBytes bs s.mem a hs.memory, hs.slotZero, fun e => absurd (hnone.symm.trans e) (by decide),
    fun e => absurd (hnone.symm.trans e) (by decide)⟩

theorem invariant_resetWith (font : Vector Byte Config.fontSize) : Invariant (resetWith font) :=
  invariant_reset.storeBytes rfl _ _

theorem invariant_launch {font : Vector Byte Config.fontSize} {rom : List Byte} {s : State}
    (h : launch font rom = .loaded s) : Invariant s := by
  by_cases hlen : rom.length ≤ Config.romMax
  · obtain rfl := LoadResult.loaded.inj ((load_of_le (resetWith font) hlen).symm.trans h)
    exact (invariant_resetWith font).storeBytes rfl _ _
  · have hrejected := (load_of_gt (resetWith font) (Nat.lt_of_not_le hlen)).symm.trans h
    simp at hrejected

/-- Settles O49: reset meets the invariant, and both the font and the image are stores on a core with no fault. -/
theorem launchStatesMeetTheInvariant : Obligations.LaunchStatesMeetTheInvariant :=
  ⟨invariant_reset, invariant_resetWith, fun _ _ _ h => invariant_launch h⟩

/-- Settles O50: a launch meets the invariant, and every move of the schedule keeps it. -/
theorem reachableStatesMeetTheInvariant : Obligations.ReachableStatesMeetTheInvariant := by
  rintro s ⟨font, rom, s₀, ms, hlaunch, hrun⟩
  exact runMoves_keeps (fun m _ => everyMoveKeepsTheInvariant m) (invariant_launch hlaunch) hrun

/-- The font is read back from 0x000 on, and zero from everywhere else (R280, R282). -/
theorem byteAt_resetWith (font : Vector Byte 80) (a : Addr) :
    (resetWith font).byteAt a = if h : a.toNat < 80 then font[a.toNat] else 0 := by
  have hlen : font.toList.length = 80 := Vector.length_toList
  have haddr (k : Nat) : Config.fontBase + BitVec.ofNat 12 k = BitVec.ofNat 12 k := BitVec.zero_add _
  split_ifs with h
  · have hread := State.reset.byteAt_storeBytes Config.fontBase font.toList a.toNat (by omega) Memory.wf_reset
      (by simp [Config.memSize])
    rw [haddr, BitVec.ofNat_toNat, BitVec.setWidth_eq] at hread
    refine hread.trans ?_
    simp
  · have hother := State.reset.byteAt_storeBytes_other Config.fontBase a font.toList fun k hk e => h (by
      rw [e, haddr, BitVec.toNat_ofNat]
      omega)
    refine hother.trans ?_
    show initialByte a.toNat = 0
    exact if_neg h

/-- Settles O1: the font is the one store on a state that is zero but for `pc`. -/
theorem resetGivesEveryPieceOfStateItsValue : Obligations.ResetGivesEveryPieceOfStateItsValue := by
  refine fun font => ⟨_, rfl, byteAt_resetWith font, fun x => ?_, rfl, rfl, fun k => ?_, rfl, rfl, rfl, fun y => ?_,
    rfl, rfl, rfl, rfl, rfl, rfl, rfl, rfl, rfl, rfl⟩
  · exact Vector.getElem_replicate x.isLt
  · exact Vector.getElem_replicate k.isLt
  · exact Vector.getElem_replicate y.isLt

/-- The default FONT of R283, with its length. -/
def defaultFontVector : Vector Byte 80 := ⟨defaultFont.toArray, rfl⟩

/-- Settles O2: each byte of the default font is what an unlisted address reads as, so the store lists nothing. -/
theorem stateResetIsTheResetOfTheDefaultFont : Obligations.StateResetIsTheResetOfTheDefaultFont :=
  ⟨defaultFontVector, rfl, rfl, rfl, rfl⟩

end Sys2Proof.Machine

/-! ## Proofs: CALL, RET and the skips (spec 40_flow.md R122 to R127; 60_exceptions.md R245, R246) -/

namespace Sys2Proof.Machine

/-- The slot pushed holds the address pushed (R122). -/
theorem State.stack_push_same (s : State) (a : Addr) : (s.push a).stack[(s.sp + 1).toFin] = a := by
  exact Vector.getElem_set_self ..

/-- Settles O15: with room on the stack the push and the jump, with a full one the raise. -/
theorem callPushesOrOverflows : Obligations.CallPushesOrOverflows := by
  refine fun s nnn => ⟨fun hsp => ?_, fun hsp => ?_⟩
  · refine ⟨_, execCall_push hsp nnn, ?_, s.stack_push_same s.pc, rfl, frame_push_setPc s nnn⟩
    show (s.sp + 1).toNat = s.sp.toNat + 1
    bv_omega
  · exact ⟨_, execCall_full hsp nnn, rfl, rfl, frame_raise s _⟩

/-- Settles O16: with an address on the stack the pop, with an empty stack the raise. -/
theorem retPopsOrUnderflows : Obligations.RetPopsOrUnderflows := by
  refine fun s => ⟨fun hsp => ?_, fun hsp => ?_⟩
  · refine ⟨_, execRet_pop hsp, rfl, ?_, frame_pop s⟩
    show (s.sp - 1).toNat = s.sp.toNat - 1
    bv_omega
  · exact ⟨_, execRet_empty hsp, rfl, rfl, frame_raise s _⟩

/-- The fetch's advance writes `pc` alone, so it adds nothing to a frame that lists `pc` (R120). -/
theorem Frame.of_advance {ps : List Part} {s t : State} (hpc : .pc ∈ ps) (h : Frame ps s.advance t) : Frame ps s t :=
  ((frame_setPc s _).mono (by simpa using hpc)).trans h

/-- Settles O17: the RET is fetched at the CALL's target from the same memory, and pops what the CALL pushed. -/
theorem callThenRetComesBack : Obligations.CallThenRetComesBack := by
  intro s nnn hf hsp hcall hret
  have hpush := (step_of_instr hf hcall).trans (execCall_push (s := s.advance) hsp nnn)
  have hne : s.sp + 1 ≠ 0 := by bv_omega
  have hpop := (step_of_instr (s := (s.advance.push s.advance.pc).setPc nnn) hf hret).trans (execRet_pop hne)
  refine ⟨_, _, hpush, hpop, s.advance.top_push _, fun p hp => ?_⟩
  by_cases hpsp : p = .sp
  · subst hpsp
    show s.sp + 1 - 1 = s.sp
    bv_omega
  · have hcalled := Frame.of_advance (by simp) (frame_push_setPc s.advance nnn)
    have hreturned := Frame.of_advance (by simp) (frame_pop ((s.advance.push s.advance.pc).setPc nnn).advance)
    exact hcalled.trans (hreturned.mono (by simp)) p (by simp_all)

/-- Settles O18: each is one `skipIf` on the comparison. -/
theorem skipsAdvanceWhenTheConditionHolds : Obligations.SkipsAdvanceWhenTheConditionHolds := by
  refine ⟨fun s x nn => ⟨_, exec_seImm x nn s, ?_, frame_skipIf s _⟩,
    fun s x nn => ⟨_, exec_sneImm x nn s, ?_, frame_skipIf s _⟩,
    fun s x y n => ⟨_, exec_seReg x y n s, ?_, frame_skipIf s _⟩,
    fun s x y n => ⟨_, exec_sneReg x y n s, ?_, frame_skipIf s _⟩⟩
  all_goals simp only [s.toNat_skipIf_pc, beq_iff_eq, bne_iff_ne]

end Sys2Proof.Machine

/-! ## Proofs: logic, arithmetic and shifts (spec 41_alu.md R153 to R162) -/

namespace Sys2Proof.Machine

/-- Settles O22: each is one `setReg`, of the bitwise operation. -/
theorem logicWorksBitByBit : Obligations.LogicWorksBitByBit := by
  refine ⟨fun s x y => ⟨_, exec_orReg x y s, frame_setReg s x _, fun k _ => ?_⟩,
    fun s x y => ⟨_, exec_andReg x y s, frame_setReg s x _, fun k _ => ?_⟩,
    fun s x y => ⟨_, exec_xorReg x y s, frame_setReg s x _, fun k _ => ?_⟩⟩
  · rw [s.reg_setReg_same, BitVec.getLsbD_or]
  · rw [s.reg_setReg_same, BitVec.getLsbD_and]
  · rw [s.reg_setReg_same, BitVec.getLsbD_xor]

theorem flagByte_decide (p : Prop) [Decidable p] : flagByte (decide p) = if p then 1 else 0 := by
  simp only [flagByte, decide_eq_true_eq]

theorem toNat_flagByte (f : Bool) : (flagByte f).toNat = f.toNat := by
  cases f <;> rfl

/-- The difference of two bytes modulo 256. -/
theorem toNat_sub_byte (a b : Byte) : (a - b).toNat = (a.toNat + 256 - b.toNat) % 256 := by
  bv_omega

/-- Settles O23: the destination is written last, so it holds the sum; VF, if another register, holds the carry. -/
theorem addSetsSumAndCarry : Obligations.AddSetsSumAndCarry := by
  refine fun s x y => ⟨_, exec_addReg x y s, ?_, fun hx => ?_, frame_setFlagThenReg s x _ _⟩
  · rw [s.reg_setFlagThenReg_dest, BitVec.toNat_add]
  · rw [s.reg_setFlagThenReg_flag hx, carryOut, flagByte_decide]

/-- Settles O24: as for the addition, with the operands exchanged in SUBN. -/
theorem subtractsSetDifferenceAndNoBorrow : Obligations.SubtractsSetDifferenceAndNoBorrow := by
  refine ⟨fun s x y => ⟨_, exec_sub x y s, ?_, fun hx => ?_, frame_setFlagThenReg s x _ _⟩,
    fun s x y => ⟨_, exec_subn x y s, ?_, fun hx => ?_, frame_setFlagThenReg s x _ _⟩⟩
  · rw [s.reg_setFlagThenReg_dest, toNat_sub_byte]
  · rw [s.reg_setFlagThenReg_flag hx, noBorrow, flagByte_decide]
  · rw [s.reg_setFlagThenReg_dest, toNat_sub_byte]
  · rw [s.reg_setFlagThenReg_flag hx, noBorrow, flagByte_decide]

theorem toNat_lowBit (a : Byte) : (lowBit a).toNat = a.toNat % 2 := by
  rw [lowBit, BitVec.getLsbD, Nat.toNat_testBit]
  simp

theorem toNat_highBit (a : Byte) : (highBit a).toNat = a.toNat / 128 := by
  rw [highBit, BitVec.getLsbD, Nat.toNat_testBit]
  omega

/-- Settles O25: a shift by one halves or doubles, and the bit shifted out is the remainder or the carry. -/
theorem shiftsSetTheBitShiftedOut : Obligations.ShiftsSetTheBitShiftedOut := by
  refine ⟨fun s x y => ⟨_, exec_shr x y s, ?_, fun hx => ?_, frame_setFlagThenReg s x _ _⟩,
    fun s x y => ⟨_, exec_shl x y s, ?_, fun hx => ?_, frame_setFlagThenReg s x _ _⟩⟩
  · rw [s.reg_setFlagThenReg_dest, BitVec.toNat_ushiftRight, Nat.shiftRight_eq_div_pow, pow_one]
  · rw [s.reg_setFlagThenReg_flag hx, toNat_flagByte, toNat_lowBit]
  · rw [s.reg_setFlagThenReg_dest, BitVec.toNat_shiftLeft, Nat.shiftLeft_eq, pow_one]
  · rw [s.reg_setFlagThenReg_flag hx, toNat_flagByte, toNat_highBit]

end Sys2Proof.Machine

/-! ## Proofs: the index register, the timers and CLS (spec 42_index_memory.md R180 to R182; 43_display.md R200;
44_keys_timers.md R220 to R224) -/

namespace Sys2Proof.Machine

/-- The glyph of a digit starts at the digit times 5: no address wraps (R182). -/
theorem toNat_glyphAddr (digit : Reg) : (glyphAddr digit).toNat = digit.val * 5 := by
  rw [glyphAddr, BitVec.toNat_ofNat, Config.glyphHeight]
  omega

/-- Settles O28: each is one `setI`. -/
theorem indexRegisterWrites : Obligations.IndexRegisterWrites := by
  refine ⟨fun s nnn => ⟨_, exec_ldI nnn s, rfl, frame_setI s _⟩, fun s x => ⟨_, exec_addI x s, ?_, frame_setI s _⟩,
    fun s x => ⟨_, exec_ldF x s, ?_, frame_setI s _⟩⟩
  · rw [State.setI_i, BitVec.toNat_add, s.toNat_regAddr]
  · have hdigit : (s.lowNibble x).val = (s.reg x).toNat % 16 := BitVec.toNat_setWidth 4 (s.reg x)
    rw [State.setI_i, toNat_glyphAddr, hdigit]

/-- Settles O34: every row is zero after. -/
theorem clsBlanksTheDisplay : Obligations.ClsBlanksTheDisplay := by
  refine fun s => ⟨_, exec_cls s, fun row col => ?_, rfl, frame_clearDisplay s⟩
  simp [State.pixel]

/-- Settles O37: each is one write of a register or a timer, and the tone shows the timer written. -/
theorem timerTransfers : Obligations.TimerTransfers := by
  refine ⟨fun s x => ⟨_, exec_ldVxDt x s, s.reg_setReg_same x _, frame_setReg s x _⟩,
    fun s x => ⟨_, exec_ldDtVx x s, rfl, frame_setDt s _⟩,
    fun s x => ⟨_, exec_ldStVx x s, rfl, ?_, frame_setSt s _⟩⟩
  exact Bool.eq_iff_iff.mpr (by simp [State.tone])

end Sys2Proof.Machine

/-! ## Proofs: memory (spec 20_memory.md R60, R74; 42_index_memory.md R183 to R186) -/

namespace Sys2Proof.Machine

/-! ### The canonical form determines the list -/

theorem Memory.wfFrom_cons {lo a : Nat} {w : Byte} {rest : Memory} :
    Memory.wfFrom lo ((a, w) :: rest) = true ↔
      lo ≤ a ∧ a < Config.memSize ∧ w ≠ initialByte a ∧ Memory.wfFrom (a + 1) rest = true := by
  simp only [Memory.wfFrom, Bool.and_eq_true, decide_eq_true_eq, and_assoc]

/-- An address below the first that may be listed reads as the reset contents. -/
theorem Memory.read_below {a : Nat} (m : Memory) :
    ∀ {lo}, Memory.wfFrom lo m = true → a < lo → Memory.read m a = initialByte a := by
  induction m with
  | nil => exact fun _ _ => rfl
  | cons c rest ih =>
    obtain ⟨b, w⟩ := c
    intro lo hwf hlt
    obtain ⟨hlo, _, _, hrest⟩ := Memory.wfFrom_cons.mp hwf
    rw [Memory.read, if_neg (by omega)]
    exact ih hrest (by omega)

/-- A memory that lists an address reads otherwise there than one that lists only later addresses. -/
theorem Memory.read_head_ne {lo lo' a : Nat} {w : Byte} {rest m' : Memory}
    (hwf : Memory.wfFrom lo ((a, w) :: rest) = true) (hwf' : Memory.wfFrom lo' m' = true) (hlt : a < lo') :
    Memory.read ((a, w) :: rest) a ≠ Memory.read m' a := by
  obtain ⟨_, _, hlisted, _⟩ := Memory.wfFrom_cons.mp hwf
  rw [Memory.read, if_pos rfl, Memory.read_below m' hwf' hlt]
  exact hlisted

/-- Canonical memories that read alike are equal: their first entries are, because neither can begin at an address the
other leaves out, and so the rests read alike. -/
theorem Memory.eq_of_read_eq (m : Memory) : ∀ {lo : Nat} {m' : Memory}, Memory.wfFrom lo m = true →
    Memory.wfFrom lo m' = true → (∀ a, a < Config.memSize → Memory.read m a = Memory.read m' a) → m = m' := by
  induction m with
  | nil =>
    intro lo m' hwf hwf' hread
    cases m' with
    | nil => rfl
    | cons c' rest' =>
      obtain ⟨a', w'⟩ := c'
      obtain ⟨_, hlt', _, _⟩ := Memory.wfFrom_cons.mp hwf'
      exact absurd (hread a' hlt').symm (Memory.read_head_ne hwf' (lo' := a' + 1) rfl (Nat.lt_succ_self a'))
  | cons c rest ih =>
    obtain ⟨a, w⟩ := c
    intro lo m' hwf hwf' hread
    obtain ⟨hlo, hlt, hlisted, hrest⟩ := Memory.wfFrom_cons.mp hwf
    cases m' with
    | nil => exact absurd (hread a hlt) (Memory.read_head_ne hwf (lo' := a + 1) rfl (Nat.lt_succ_self a))
    | cons c' rest' =>
      obtain ⟨a', w'⟩ := c'
      obtain ⟨hlo', hlt', hlisted', hrest'⟩ := Memory.wfFrom_cons.mp hwf'
      obtain hbefore | rfl | hafter := lt_trichotomy a a'
      · have hlater := Memory.wfFrom_cons.mpr ⟨le_refl a', hlt', hlisted', hrest'⟩
        exact absurd (hread a hlt) (Memory.read_head_ne hwf hlater hbefore)
      · have hbyte := hread a hlt
        simp only [Memory.read, if_pos] at hbyte
        have htail : rest = rest' := ih hrest hrest' fun x hx => by
          by_cases hxa : x = a
          · rw [hxa, Memory.read_below rest hrest (Nat.lt_succ_self a),
              Memory.read_below rest' hrest' (Nat.lt_succ_self a)]
          · simpa only [Memory.read, if_neg hxa] using hread x hx
        rw [hbyte, htail]
      · have hlater := Memory.wfFrom_cons.mpr ⟨le_refl a, hlt, hlisted, hrest⟩
        exact absurd (hread a' hlt').symm (Memory.read_head_ne hwf' hlater hafter)

/-- Settles O33: an address of 12 bits is any number below 4096. -/
theorem canonicalMemoriesReadingAlikeAreEqual : Obligations.CanonicalMemoriesReadingAlikeAreEqual := by
  intro m m' hwf hwf' hread
  refine m.eq_of_read_eq hwf hwf' fun a ha => ?_
  simpa [Nat.mod_eq_of_lt ha] using hread (BitVec.ofNat 12 a)

/-! ### Stores and the bulk load -/

/-- The bytes stored from `I` on read back at their elements' addresses, in a canonical memory (R71, R184). -/
theorem State.byteAt_storeBytes_ea {s : State} {bs : List Byte} {k : Nat} (hk : k < bs.length)
    (hm : Memory.wf s.mem = true) (hlen : bs.length ≤ Config.memSize) : (s.storeBytes s.i bs).byteAt (s.ea k) = bs[k] :=
  s.byteAt_storeBytes s.i bs k hk hm hlen

/-- The digits fit a byte each (R183). -/
theorem toNat_bcdDigits (b : Byte) :
    (bcdDigits b).map BitVec.toNat = [b.toNat / 100, b.toNat / 10 % 10, b.toNat % 10] := by
  have := b.isLt
  simp only [bcdDigits, List.map_cons, List.map_nil, BitVec.toNat_ofNat, List.cons.injEq, and_true]
  omega

/-- The k-th digit stored reads back at the k-th address from `I` on (R183). -/
theorem toNat_byteAt_storeBcd {s : State} (x : Reg) (hm : Memory.wf s.mem = true) {k : Nat} (hk : k < 3) :
    ((s.storeBytes s.i (bcdDigits (s.reg x))).byteAt (s.ea k)).toNat =
      [(s.reg x).toNat / 100, (s.reg x).toNat / 10 % 10, (s.reg x).toNat % 10][k] := by
  have hlen : (bcdDigits (s.reg x)).length = 3 := rfl
  have hlt : k < (bcdDigits (s.reg x)).length := hlen ▸ hk
  rw [State.byteAt_storeBytes_ea hlt hm (by simp [hlen, Config.memSize])]
  simp only [← toNat_bcdDigits, List.getElem_map]

/-- Settles O29: the store of the three digits, read back one by one. -/
theorem bcdStoresThreeDigits : Obligations.BcdStoresThreeDigits := by
  intro s x
  refine ⟨_, exec_ldB x s, frame_storeBytes s s.i (bcdDigits (s.reg x)), fun hm => ⟨?_, ?_, ?_⟩⟩
  · exact toNat_byteAt_storeBcd x hm (k := 0) (by decide)
  · exact toNat_byteAt_storeBcd x hm (k := 1) (by decide)
  · exact toNat_byteAt_storeBcd x hm (k := 2) (by decide)

/-- The k-th of `V0` to `VX` is `Vk` (R185). -/
theorem State.getElem_regsUpTo (s : State) (x k : Reg) (h : k.val < (s.regsUpTo x).length) :
    (s.regsUpTo x)[k.val] = s.reg k := by
  simp [State.regsUpTo, State.reg]

/-- A register stored reads back at its address (R185). -/
theorem byteAt_storeRegs {s : State} {x k : Reg} (hm : Memory.wf s.mem = true) (hk : k ≤ x) :
    (s.storeBytes s.i (s.regsUpTo x)).byteAt (s.ea k.val) = s.reg k := by
  have hlen := s.length_regsUpTo x
  have hlt : k.val < (s.regsUpTo x).length := hlen ▸ Nat.lt_succ_of_le hk
  rw [State.byteAt_storeBytes_ea hlt hm (by simp only [Config.memSize]; omega), s.getElem_regsUpTo]

/-- Settles O30: the store of the registers; what lies outside its addresses is in its frame. -/
theorem bulkStoreWritesTheRegisters : Obligations.BulkStoreWritesTheRegisters := by
  intro s x
  refine ⟨_, exec_ldMemVx x s, fun a ha => ?_, fun hm k hk => byteAt_storeRegs hm hk, frame_storeRegs s x⟩
  refine s.byteAt_storeBytes_other s.i a (s.regsUpTo x) fun k hk => ?_
  rw [s.length_regsUpTo] at hk
  exact ha ⟨k, by omega⟩ (Nat.le_of_lt_succ hk)

/-- Settles O31: what a register is after the bulk load. -/
theorem bulkLoadReadsTheRegisters : Obligations.BulkLoadReadsTheRegisters := by
  refine fun s x => ⟨_, exec_ldVxMem x s, fun k hk => ?_, fun k hk => ?_, frame_loadRegs s x⟩
  · rw [s.reg_loadRegs, if_pos hk]
  · rw [s.reg_loadRegs, if_neg (not_le.mpr hk)]

/-! ### A store over the next instruction -/

theorem State.fetchWord_div (s : State) : s.fetchWord.toNat / 256 = (s.byteAt s.pc).toNat := by
  rw [State.fetchWord, toNat_ofBytes]
  omega

theorem State.fetchWord_mod (s : State) : s.fetchWord.toNat % 256 = (s.byteAt (s.pc + 1)).toNat := by
  rw [State.fetchWord, toNat_ofBytes]
  omega

/-- The next fetch takes the byte at the advanced `pc` as its high byte and the one after as its low byte (R63, R74). -/
theorem State.fetchWord_of_pc_advanced {s t : State} (hpc : t.pc = s.pc + 2) {a : Addr} {n : Nat}
    (ha : (t.byteAt a).toNat = n) :
    (a = s.pc + 2 → t.fetchWord.toNat / 256 = n) ∧ (a = s.pc + 3 → t.fetchWord.toNat % 256 = n) := by
  have hlow : t.pc + 1 = s.pc + 3 := by rw [hpc, BitVec.add_assoc]; rfl
  refine ⟨fun e => ?_, fun e => ?_⟩
  · rw [t.fetchWord_div, hpc, ← e, ha]
  · rw [t.fetchWord_mod, hlow, ← e, ha]

/-- Settles O32: the store leaves `pc` at the next instruction, where the fetch reads what the store put there. -/
theorem storedWordIsFetchedNext : Obligations.StoredWordIsFetchedNext := by
  refine fun s x hm hf => ⟨fun hd => ?_, fun hd => ?_⟩
  · refine ⟨_, (step_of_instr hf hd).trans (exec_ldMemVx x s.advance), rfl, fun k hk => ?_⟩
    exact State.fetchWord_of_pc_advanced rfl (congrArg BitVec.toNat (byteAt_storeRegs (s := s.advance) hm hk))
  · refine ⟨_, (step_of_instr hf hd).trans (exec_ldB x s.advance), rfl, fun k digit hmem => ?_⟩
    refine State.fetchWord_of_pc_advanced rfl ?_
    simp only [List.mem_cons, Prod.mk.injEq, List.not_mem_nil, or_false] at hmem
    obtain ⟨rfl, rfl⟩ | ⟨rfl, rfl⟩ | ⟨rfl, rfl⟩ := hmem
    all_goals exact toNat_byteAt_storeBcd (s := s.advance) x hm (by decide)

end Sys2Proof.Machine

/-! ## Proofs: DRW (spec 43_display.md R201 to R203) -/

namespace Sys2Proof.Machine

theorem State.toNat_column (s : State) (x : Reg) : (s.column x).toNat = (s.reg x).toNat % 64 :=
  BitVec.toNat_setWidth 6 (s.reg x)

theorem State.toNat_line_add (s : State) (y : Reg) (k : Nat) :
    (s.line y + BitVec.ofNat 5 k).toNat = ((s.reg y).toNat % 32 + k) % 32 := by
  have hline : (s.line y).toNat = (s.reg y).toNat % 32 := BitVec.toNat_setWidth 5 (s.reg y)
  rw [BitVec.toNat_add, hline, BitVec.toNat_ofNat]
  omega

/-- The mask of a sprite byte has a 1 at a column exactly where one of its pixels that is 1 lands (R203). -/
theorem rowMask_column_iff (b : Byte) (x0 : BitVec 6) (col : Fin 64) :
    (rowMask b x0).getLsbD (63 - col.val) = true ↔
      ∃ j, j < 8 ∧ col.val = (x0.toNat + j) % 64 ∧ b.getLsbD (7 - j) = true := by
  have hx := x0.isLt
  have hcol := col.isLt
  rw [getLsbD_rowMask b x0 _ (by omega), Bool.and_eq_true, decide_eq_true_eq]
  constructor
  · rintro ⟨hin, hbit⟩
    refine ⟨63 - (63 - col.val + x0.toNat) % 64, by omega, by omega, ?_⟩
    rwa [show 7 - (63 - (63 - col.val + x0.toNat) % 64) = (63 - col.val + x0.toNat) % 64 - 56 by omega]
  · rintro ⟨j, hj, hland, hbit⟩
    have hpos : (63 - col.val + x0.toNat) % 64 = 63 - j := by omega
    rw [hpos, show 63 - j - 56 = 7 - j by omega]
    exact ⟨by omega, hbit⟩

/-- The mask of the sprite's row `k` (R201). -/
def State.spriteMask (s : State) (x : Reg) (k : Nat) : Row := rowMask (s.byteAt (s.i + BitVec.ofNat 12 k)) (s.column x)

/-- A sprite 1 lands on a pixel exactly when some row of the sprite falls in the pixel's row and its mask has a 1 at the
pixel's column. -/
theorem State.spriteAt_iff (s : State) (x y : Reg) (n : BitVec 4) (row : Fin 32) (col : Fin 64) :
    s.SpriteAt x y n row col ↔ ∃ k, k < n.toNat ∧ row.val = (s.line y + BitVec.ofNat 5 k).toNat ∧
      (s.spriteMask x k).getLsbD (63 - col.val) = true := by
  simp only [State.SpriteAt, State.spriteMask, rowMask_column_iff, s.toNat_line_add, s.toNat_column, State.spriteBit]
  constructor
  · rintro ⟨k, j, hk, hj, hrow, hcol, hbit⟩
    exact ⟨k, hk, hrow, j, hj, hcol, hbit⟩
  · rintro ⟨k, hk, hrow, j, hj, hcol, hbit⟩
    exact ⟨k, j, hk, hj, hrow, hcol, hbit⟩

/-- At most one row of the sprite falls in a row of the display: the sprite has at most 15 rows. -/
theorem spriteRow_unique {y : BitVec 5} {k k' : Nat} {n : BitVec 4} (hk : k < n.toNat) (hk' : k' < n.toNat)
    (h : (y + BitVec.ofNat 5 k).toNat = (y + BitVec.ofNat 5 k').toNat) : k = k' := by
  have := n.isLt
  simp only [BitVec.toNat_add, BitVec.toNat_ofNat] at h
  omega

theorem State.length_spriteBytes (s : State) (n : BitVec 4) : (s.bytesAt s.i n.toNat).length = n.toNat :=
  s.length_bytesAt s.i n.toNat

theorem State.length_spriteBytes_le (s : State) (n : BitVec 4) : (s.bytesAt s.i n.toNat).length ≤ 32 := by
  have := n.isLt
  rw [s.length_spriteBytes]
  omega

/-- DRW XORs the mask of the sprite's row `k` onto the row it falls in (R201). -/
theorem State.sprite_row (s : State) (x y : Reg) {n : BitVec 4} {k : Nat} (hk : k < n.toNat) {row : Fin 32}
    (hrow : row.val = (s.line y + BitVec.ofNat 5 k).toNat) :
    (s.sprite x y n).1[row] = s.disp[row] ^^^ s.spriteMask x k := by
  have hlt : k < (s.bytesAt s.i n.toNat).length := by rwa [s.length_spriteBytes]
  have hxor := drawRows_row (s.column x) (s.bytesAt s.i n.toNat) (s.line y) s.disp false k hlt
    (s.length_spriteBytes_le n)
  rw [s.getElem_bytesAt] at hxor
  simpa only [State.sprite, State.spriteMask, Fin.getElem_fin, hrow] using hxor

/-- DRW leaves a row that no row of the sprite falls in (R201). -/
theorem State.sprite_other (s : State) (x y : Reg) {n : BitVec 4} {row : Fin 32}
    (hrow : ∀ k, k < n.toNat → row.val ≠ (s.line y + BitVec.ofNat 5 k).toNat) :
    (s.sprite x y n).1[row] = s.disp[row] :=
  drawRows_other (s.column x) _ (s.line y) s.disp false row.val row.isLt
    fun k hk => hrow k (s.length_spriteBytes n ▸ hk)

/-- A pixel after DRW is the pixel before XOR the sprite's (R201). -/
theorem State.sprite_pixel (s : State) (x y : Reg) (n : BitVec 4) (row : Fin 32) (col : Fin 64) :
    (s.sprite x y n).1[row].getLsbD (63 - col.val) = true ↔ ¬ (s.pixel row col = true ↔ s.SpriteAt x y n row col) := by
  rw [s.spriteAt_iff]
  by_cases hfalls : ∃ k, k < n.toNat ∧ row.val = (s.line y + BitVec.ofNat 5 k).toNat
  · obtain ⟨k, hk, hrow⟩ := hfalls
    have honly : (∃ k', k' < n.toNat ∧ row.val = (s.line y + BitVec.ofNat 5 k').toNat ∧
        (s.spriteMask x k').getLsbD (63 - col.val) = true) ↔ (s.spriteMask x k).getLsbD (63 - col.val) = true := by
      refine ⟨fun ⟨k', hk', hrow', hbit⟩ => ?_, fun hbit => ⟨k, hk, hrow, hbit⟩⟩
      rwa [spriteRow_unique hk hk' (hrow.symm.trans hrow')]
    rw [s.sprite_row x y hk hrow, BitVec.getLsbD_xor, honly, State.pixel, Bool.xor_iff_ne, ne_eq, Bool.eq_iff_iff]
  · have hnone : ¬ ∃ k, k < n.toNat ∧ row.val = (s.line y + BitVec.ofNat 5 k).toNat ∧
        (s.spriteMask x k).getLsbD (63 - col.val) = true := fun ⟨k, hk, hrow, _⟩ => hfalls ⟨k, hk, hrow⟩
    rw [s.sprite_other x y fun k hk hrow => hfalls ⟨k, hk, hrow⟩, State.pixel]
    simp only [hnone, iff_false, not_not]

/-- A row is zero exactly when no column of it is 1 (R203). -/
theorem row_ne_zero_iff (r : Row) : r ≠ 0 ↔ ∃ col : Fin 64, r.getLsbD (63 - col.val) = true := by
  constructor
  · intro hne
    by_contra hno
    refine hne (BitVec.eq_of_getLsbD_eq fun i hi => ?_)
    have hbit : ¬ r.getLsbD (63 - (63 - i)) = true := fun h => hno ⟨⟨63 - i, by omega⟩, h⟩
    rw [show 63 - (63 - i) = i by omega] at hbit
    simpa using hbit
  · rintro ⟨col, hbit⟩ rfl
    simp at hbit

/-- DRW finds a collision exactly when a sprite 1 lands on a lit pixel (R201). -/
theorem State.sprite_hit (s : State) (x y : Reg) (n : BitVec 4) :
    (s.sprite x y n).2 = true ↔ ∃ row col, s.pixel row col = true ∧ s.SpriteAt x y n row col := by
  rw [State.sprite, drawRows_hit _ _ _ _ _ (s.length_spriteBytes_le n)]
  simp only [Bool.false_eq_true, false_or, s.getElem_bytesAt, row_ne_zero_iff, BitVec.getLsbD_and, Bool.and_eq_true,
    s.spriteAt_iff]
  constructor
  · rintro ⟨k, hk, col, hlit, hmask⟩
    exact ⟨⟨_, (s.line y + BitVec.ofNat 5 k).isLt⟩, col, hlit, k, s.length_spriteBytes n ▸ hk, rfl, hmask⟩
  · rintro ⟨row, col, hlit, k, hk, hrow, hmask⟩
    refine ⟨k, (s.length_spriteBytes n).symm ▸ hk, col, ?_, hmask⟩
    simpa only [State.pixel, Fin.getElem_fin, hrow] using hlit

theorem State.drew_pixel (s : State) (x y : Reg) (n : BitVec 4) (row : Fin 32) (col : Fin 64) :
    (s.drew x y n).pixel row col = true ↔ ¬ (s.pixel row col = true ↔ s.SpriteAt x y n row col) :=
  s.sprite_pixel x y n row col

theorem State.drew_flag (s : State) (x y : Reg) (n : BitVec 4) :
    (s.drew x y n).reg 15 = flagByte (s.sprite x y n).2 :=
  State.reg_setReg_same _ _ _

/-- Settles O35: pixel by pixel the XOR, and VF the collision found. -/
theorem drwXorsTheSpritePixelByPixel : Obligations.DrwXorsTheSpritePixelByPixel := by
  refine fun s x y n => ⟨s.drew x y n, exec_drw x y n s, s.drew_pixel x y n, fun hhit => ?_, fun hno => ?_, rfl,
    frame_drew s x y n⟩
  · rw [s.drew_flag, (s.sprite_hit x y n).mpr hhit]
    rfl
  · rw [s.drew_flag, Bool.eq_false_iff.mpr fun hit => hno ((s.sprite_hit x y n).mp hit)]
    rfl

/-- DRW moves no sprite: with neither coordinate in VF the same sprite lands on the same pixels again (R202). -/
theorem State.drew_spriteAt (s : State) {x y : Reg} (hx : x ≠ 15) (hy : y ≠ 15) (n : BitVec 4) (row : Fin 32)
    (col : Fin 64) : (s.drew x y n).SpriteAt x y n row col ↔ s.SpriteAt x y n row col := by
  have hregx : (s.drew x y n).reg x = s.reg x := State.reg_setReg_other _ hx _
  have hregy : (s.drew x y n).reg y = s.reg y := State.reg_setReg_other _ hy _
  have hbit (r j : Nat) : (s.drew x y n).spriteBit r j = s.spriteBit r j := rfl
  simp only [State.SpriteAt, hregx, hregy, hbit]

/-- Displays with the same pixels have the same rows (R203). -/
theorem row_eq_of_pixel {s t : State} (h : ∀ row col, t.pixel row col = true ↔ s.pixel row col = true) (row : Fin 32) :
    t.disp[row] = s.disp[row] := by
  refine BitVec.eq_of_getLsbD_eq fun i hi => Bool.eq_iff_iff.mpr ?_
  have hcol := h row ⟨63 - i, by omega⟩
  simpa only [State.pixel, show 63 - (63 - i) = i by omega] using hcol

/-- Settles O36: XOR with the same sprite twice changes no pixel; after the first draw the lit pixels under the sprite
are those that were unlit. -/
theorem drawingTwiceRestoresTheDisplay : Obligations.DrawingTwiceRestoresTheDisplay := by
  intro s x y n hx hy
  refine ⟨s.drew x y n, (s.drew x y n).drew x y n, exec_drw x y n s, exec_drw x y n _,
    row_eq_of_pixel fun row col => ?_, ?_⟩
  · rw [State.drew_pixel, s.drew_spriteAt hx hy, s.drew_pixel]
    tauto
  · have hone (f : Bool) : flagByte f = 1 ↔ f = true := by cases f <;> decide
    rw [State.drew_flag, hone, State.sprite_hit]
    refine exists_congr fun row => exists_congr fun col => ?_
    rw [s.drew_spriteAt hx hy, s.drew_pixel, ← Bool.not_eq_true]
    tauto

end Sys2Proof.Machine
